-- ==== Sys2Proof/Config.lean ====
section
/-! DEFINITION. The parameters of the core: what the spec leaves to each instance (spec 00_scope.md R3; 92_eei_decisions.md D1, D2, D16, D18). -/

namespace Sys2Proof

/-- OUT_RENDER: what the host's sink writes between two outputs, "the separator or terminator" (45_output.md R66, D16). -/
inductive OutRender where
  /-- The text stands between two outputs. -/
  | separator (text : List Char)
  /-- The text stands after each output. -/
  | terminator (text : List Char)
  deriving DecidableEq, Repr

/-- The parameters, fixed at construction (00_scope.md R3: "A model takes each as an argument"). -/
structure Config where
  /-- IMEM_CAP: the Instruction Store capacity in bytes (R3, D1). -/
  imemCap : Nat
  /-- STACK_CAP: the Operand Stack capacity in 32-bit slots (R3, D2). -/
  stackCap : Nat
  /-- Whether the trace port is enabled; the default is a no-op (60_exceptions.md R75, U9). -/
  traceOn : Bool
  /-- TRACE_WINDOW: how many instruction bytes a snapshot shows (R75, D18). -/
  traceWindow : Nat
  /-- TRACE_STACK_N: how many stack slots a snapshot shows (R75, D18). -/
  traceStackN : Nat
  /-- OUT_RENDER, a parameter of the host's sink (45_output.md R66, D16). -/
  outRender : OutRender
  deriving DecidableEq, Repr

/-- The spec's constraints: 1 ≤ IMEM_CAP ≤ 65536 and STACK_CAP ≥ 3 (00_scope.md R3). -/
abbrev Config.Valid (c : Config) : Prop :=
  1 ≤ c.imemCap ∧ c.imemCap ≤ 65536 ∧ 3 ≤ c.stackCap

/-- The configuration of `State.reset`.
IMEM_CAP = 64 and STACK_CAP = 16 are the spec's reference values (R3, 95_test_vectors.md).
DESIGN CHOICE (log 1): which configuration the one reset state has; safe, since the statements take every valid one. -/
def Config.reference : Config where
  imemCap := 64
  stackCap := 16
  traceOn := false
  traceWindow := 8
  traceStackN := 4
  outRender := .separator ['\n']

end Sys2Proof
end

