-- ==== Sys2Proof/Word.lean ====
section
/-! DEFINITION. The words and bytes of the core and their readings as integers (spec 00_scope.md R4, R5). -/

namespace Sys2Proof

/-- A cell of the Instruction Store: an unsigned 8-bit byte (00_scope.md R4). -/
abbrev Byte := BitVec 8

/-- A register, a stack slot or an ALU operand: 32 bits (00_scope.md R4, R5). -/
abbrev Word := BitVec 32

/-- The 16-bit instruction pointer, and a jump target (10_state.md R11, 30_encoding.md R33). -/
abbrev Addr := BitVec 16

/-- `sint`: the two's-complement value of a word (00_scope.md R5). -/
abbrev sint (w : Word) : Int := w.toInt

/-- `uint`: the unsigned value of a word (00_scope.md R5). -/
abbrev uint (w : Word) : Nat := w.toNat

/-- `wrap32`: the word whose unsigned value is `n mod 2^32` (00_scope.md R5). -/
abbrev wrap32 (n : Int) : Word := BitVec.ofInt 32 n

/-- INT_MIN, the word 0x80000000 (00_scope.md R5). -/
abbrev intMin : Word := 0x80000000#32

/-- INT_MAX, the word 0x7FFFFFFF (00_scope.md R5). -/
abbrev intMax : Word := 0x7FFFFFFF#32

end Sys2Proof
end

