-- ==== Sys2Proof/Machine/State.lean ====
section
/-! DEFINITION. The state of the core as plain data, its reset value, and the reasons a step can stop (spec 10_state.md R10 to R21; 70_reset_and_hazards.md R78). -/

namespace Sys2Proof.Machine

/-- The Instruction Store: (address, byte) pairs, addresses strictly rising, no pair whose byte is what an unlisted address reads as.
The form is `Memory.wf`; the operations are in Machine/Memory.lean. -/
abbrev Memory := List Host.Cell

/-- The host's bookkeeping: LOADABLE from reset until the first step, STARTED after it (70_reset_and_hazards.md, introduction). -/
inductive Phase where
  | loadable
  | started
  deriving DecidableEq, Repr

/-- What the trace port presents to its observer at one step (60_exceptions.md R75). -/
structure Snapshot where
  ip : Addr
  sp : Nat
  x : Vector Word 16
  /-- `imem[ip .. min(ip+TRACE_WINDOW, IMEM_CAP) − 1]`. -/
  window : List Byte
  /-- `stk[0 .. min(TRACE_STACK_N, STACK_CAP) − 1]`, dead slots included. -/
  slots : List Word
  deriving DecidableEq, Repr

/-- The state: the spec's tuple (10_state.md R10), the host's `phase`, and the model's own `cfg`, `out` and `trace` (logs 1 and 2). -/
structure State where
  /-- The parameters, fixed at construction (00_scope.md R3; log 1). -/
  cfg : Config
  /-- The instruction pointer (R11). -/
  ip : Addr
  /-- The stack pointer: the count of live slots (R13). -/
  sp : Nat
  /-- The register file x[0] to x[15] (R16). -/
  x : Vector Word 16
  /-- The operand stack's slots, dead ones included, slot 0 first (R13, R15). -/
  stk : List Word
  /-- The Instruction Store (R10, 20_memory.md R22). -/
  imem : Memory
  /-- The status register (R17). -/
  status : BitVec 32
  /-- The host's bookkeeping, no core state (70_reset_and_hazards.md R78 to R80). -/
  phase : Phase
  /-- The output events of the run so far, oldest first: an observation, no core state (45_output.md R64; log 2). -/
  out : List Word
  /-- The trace snapshots of the run so far, oldest first: an observation, no core state (60_exceptions.md R75; log 2). -/
  trace : List Snapshot
  deriving DecidableEq, Repr

/-- The state after reset of a core built with the configuration `c`: every field zero (10_state.md R21; 70_reset_and_hazards.md R78). -/
def State.resetWith (c : Config) : State where
  cfg := c
  ip := 0
  sp := 0
  x := Vector.replicate 16 0
  stk := List.replicate c.stackCap 0
  imem := []
  status := 0
  phase := .loadable
  out := []
  trace := []

/-- The machine right after reset, in the reference configuration (10_state.md R21; log 1). -/
def State.reset : State := State.resetWith Config.reference

/-- Stops of the model in states the spec excludes (10_state.md R10: ip < IMEM_CAP, and stk has STACK_CAP slots).
The core's own seven faults are no stops: they are next states with status FAULTED (60_exceptions.md R69). -/
inductive Fault where
  /-- Raised by the fetch when ip ≥ IMEM_CAP: there is no such byte (R10, R11). Safe: it stops, and no reached state has it (log 3). -/
  | ipOutsideStore
  /-- Raised by the push and pop primitives when the slot they name is none of the stack's: sp and stk do not fit together (R10, R13).
  Safe: it stops, and no reached state has it (log 3). -/
  | stackSlotAbsent
  deriving DecidableEq, Repr

/-- Why a step is refused. -/
inductive Refusal where
  /-- Raised by `exec` for an instruction without a meaning; no arm does so in this model. Safe: it stops. -/
  | notModelled (mnemonic : String)
  /-- Raised by `step` when STATE = HALTED: "no step is defined", and the host's step is refused (40_dispatch.md R46; 70_reset_and_hazards.md R80). Safe. -/
  | coreHalted
  /-- Raised by `step` when STATE = FAULTED (40_dispatch.md R46; 70_reset_and_hazards.md R80). Safe. -/
  | coreFaulted
  /-- Raised by `step` when STATE = 3, which "is never produced" (10_state.md R17). Safe: a step is defined only while STATE = RUNNING (log 4). -/
  | coreStateReserved
  deriving DecidableEq, Repr

end Sys2Proof.Machine
end

