-- ==== Sys2Proof/Machine/Flags.lean ====
section
/-! DEFINITION. The status register: its fields, the fault codes, and the values that STOP and a fault write (spec 10_state.md R17; 60_exceptions.md R67, R69).

The core has no flags: no instruction computes or writes one (10_state.md R18). -/

namespace Sys2Proof.Machine

/-- The seven fault kinds (60_exceptions.md R67). -/
inductive FaultKind where
  | invalidOpcode
  | fetchOutOfBounds
  | invalidRegister
  | stackUnderflow
  | stackOverflow
  | divideByZero
  | invalidJumpTarget
  deriving DecidableEq, Repr

/-- The code stored in FCODE (60_exceptions.md R67, D13). -/
def FaultKind.code : FaultKind → BitVec 4
  | .invalidOpcode => 1
  | .fetchOutOfBounds => 2
  | .invalidRegister => 3
  | .stackUnderflow => 4
  | .stackOverflow => 5
  | .divideByZero => 6
  | .invalidJumpTarget => 7

/-- The run state of the core (10_state.md R17: STATE). -/
inductive RunState where
  | running
  | halted
  | faulted
  /-- STATE = 3, "never produced". -/
  | reserved
  deriving DecidableEq, Repr

/-- STATE, bits [1:0] of status (10_state.md R17). -/
def stateField (st : BitVec 32) : BitVec 2 := st.extractLsb' 0 2

/-- Bits [7:2] of status: reserved, always 0 (10_state.md R17). -/
def reservedLow (st : BitVec 32) : BitVec 6 := st.extractLsb' 2 6

/-- FCODE, bits [11:8] of status (10_state.md R17). -/
def fcodeField (st : BitVec 32) : BitVec 4 := st.extractLsb' 8 4

/-- Bits [15:12] of status: reserved, always 0 (10_state.md R17). -/
def reservedHigh (st : BitVec 32) : BitVec 4 := st.extractLsb' 12 4

/-- FIP, bits [31:16] of status (10_state.md R17). -/
def fipField (st : BitVec 32) : Addr := st.extractLsb' 16 16

/-- The run state a status word says (10_state.md R17). -/
def runStateOf (st : BitVec 32) : RunState :=
  match (stateField st).toNat with
  | 0 => .running
  | 1 => .halted
  | 2 => .faulted
  | _ => .reserved

/-- The run state of the core. -/
def State.runState (s : State) : RunState := runStateOf s.status

/-- `status.STATE <- HALTED`, the other fields as they are (40_dispatch.md R44). -/
def haltStatus (st : BitVec 32) : BitVec 32 := (st &&& 0xFFFFFFFC#32) ||| 1#32

/-- `(a << 16) | (code(F) << 8) | 2` (60_exceptions.md R69). -/
def faultStatus (a : Addr) (k : FaultKind) : BitVec 32 :=
  (a.setWidth 32 <<< 16) ||| (k.code.setWidth 32 <<< 8) ||| 2#32

end Sys2Proof.Machine
end

