-- ==== Sys2Proof/Machine/Memory.lean ====
section
/-! DEFINITION. The Instruction Store's operations: reading a byte, reading a run of bytes, writing a byte, and loading bytes (spec 00_scope.md R7; 20_memory.md R22 to R26). -/

namespace Sys2Proof.Machine

/-- What an address that nothing has written reads as: zero, the reset contents (10_state.md R21; 20_memory.md R26). -/
def Memory.unlisted : Byte := 0

/-- The canonical form: addresses strictly rising, and no listed byte equal to what an unlisted address reads as. -/
def Memory.wf : Memory → Bool
  | [] => true
  | (a, b) :: m => b != Memory.unlisted && m.all (fun c => a < c.1) && Memory.wf m

/-- `imem[a]` (00_scope.md R6). -/
def Memory.read : Memory → Nat → Byte
  | [], _ => Memory.unlisted
  | (b, v) :: m, a => if a = b then v else Memory.read m a

/-- `imem[a], imem[a+1], …`: `n` bytes from address `a`. -/
def Memory.bytes (m : Memory) (a : Nat) : Nat → List Byte
  | 0 => []
  | n + 1 => Memory.read m a :: Memory.bytes m (a + 1) n

/-- The value of bytes of which the first is least significant (20_memory.md R23). -/
def leNat : List Byte → Nat
  | [] => 0
  | b :: bs => b.toNat + 256 * leNat bs

/-- `uint(MemRead(a, n))`: the `n` bytes from address `a`, little-endian (00_scope.md R7). -/
def Memory.memRead (m : Memory) (a n : Nat) : Nat := leNat (Memory.bytes m a n)

/-- Put the cell (a, v) before `m`, unless v is what an unlisted address reads as. -/
def Memory.cons (a : Nat) (v : Byte) (m : Memory) : Memory :=
  if v = Memory.unlisted then m else (a, v) :: m

/-- `imem[a] <- v`, keeping the canonical form. -/
def Memory.write : Memory → Nat → Byte → Memory
  | [], a, v => Memory.cons a v []
  | (b, w) :: m, a, v =>
    if a < b then Memory.cons a v ((b, w) :: m)
    else if a = b then Memory.cons a v m
    else (b, w) :: Memory.write m a v

/-- `imem[a] <- bytes[0]`, `imem[a+1] <- bytes[1]`, and so on. -/
def Memory.writeBytes (m : Memory) (a : Nat) : List Byte → Memory
  | [] => m
  | b :: bs => Memory.writeBytes (Memory.write m a b) (a + 1) bs

/-- The store that holds `bytes` from address 0 and zero after them (70_reset_and_hazards.md R79). -/
def Memory.ofBytes (bytes : List Byte) : Memory := Memory.writeBytes [] 0 bytes

end Sys2Proof.Machine
end

