-- ==== Sys2Proof/Machine/Ops.lean ====
section
/-! DEFINITION. The named operations every meaning is built from: taking a fault, commit, halt, the stack primitives, the next-address primitives, and writes of registers and output (spec 00_scope.md R6, R8; 40_dispatch.md R41, R42; 41_stack.md R47, R48; 60_exceptions.md R69). -/

namespace Sys2Proof.Machine

/-- The three outcomes of a step of this machine. -/
abbrev Result := Host.Outcome State Fault Refusal

/-- How the pseudocode of an instruction ends early. -/
inductive Abort where
  /-- `raise F` (00_scope.md R8). -/
  | raise (k : FaultKind)
  /-- Something the spec says is always there is not (log 3). -/
  | absent (f : Fault)
  deriving DecidableEq, Repr

/-- Fault entry: status becomes `(a << 16) | (code(F) << 8) | 2` with `a` the instruction's address, and nothing else changes (60_exceptions.md R69).
There is no return from a fault: only the host's reset leaves FAULTED (R70; `State.hostReset`). -/
def State.raised (k : FaultKind) (s : State) : State := { s with status := faultStatus s.ip k }

/-- How a step ends when its pseudocode ends early at state `s`, the state before the instruction (40_dispatch.md R42). -/
def State.aborted (s : State) : Abort → Result
  | .raise k => .next (s.raised k)
  | .absent f => .fault f

/-- Commit: the staged writes take effect together, and only if no check raised; a raise discards them all (40_dispatch.md R42; 00_scope.md R8). -/
def State.commit (s : State) : Except Abort State → Result
  | .ok t => .next t
  | .error e => s.aborted e

/-- `halt`: STATE becomes HALTED; ip, sp, x and stk are unchanged (00_scope.md R8; 40_dispatch.md R44). -/
def State.halt (s : State) : State := { s with status := haltStatus s.status }

/-- `ip <- t` (00_scope.md R6). -/
def State.setIp (t : Addr) (s : State) : State := { s with ip := t }

/-- `stk[sp] <- v; sp <- sp + 1` (41_stack.md R47). -/
def State.pushed (v : Word) (s : State) : State := { s with stk := s.stk.set s.sp v, sp := s.sp + 1 }

/-- `sp <- sp − 1`; the vacated slot is not cleared (41_stack.md R48). -/
def State.dropped (s : State) : State := { s with sp := s.sp - 1 }

/-- `x[r] <- v` (00_scope.md R6; 10_state.md R16: no register is hardwired). -/
def State.setReg (r : Fin 16) (v : Word) (s : State) : State := { s with x := s.x.set r v }

/-- `x[r]` (00_scope.md R6). -/
def State.reg (s : State) (r : Fin 16) : Word := s.x[r]

/-- `emit(v)`: one event at the output port, delivered at commit (45_output.md R64). -/
def State.emit (v : Word) (s : State) : State := { s with out := s.out ++ [v] }

/-- `push(v)` (41_stack.md R47). -/
def push (v : Word) (s : State) : Except Abort State :=
  if s.cfg.stackCap ≤ s.sp + 2 then .error (.raise .stackOverflow)
  else if s.sp < s.stk.length then .ok (s.pushed v)
  else .error (.absent .stackSlotAbsent)

/-- `pop()`: the top word and the state without it (41_stack.md R48). -/
def pop (s : State) : Except Abort (Word × State) :=
  if s.sp = 0 then .error (.raise .stackUnderflow)
  else
    match s.stk[s.sp - 1]? with
    | some v => .ok (v, s.dropped)
    | none => .error (.absent .stackSlotAbsent)

/-- `advance(w)`: sequential flow (40_dispatch.md R41). -/
def advance (w : Nat) (s : State) : Except Abort State :=
  if s.cfg.imemCap ≤ s.ip.toNat + w then .error (.raise .fetchOutOfBounds)
  else .ok (s.setIp (BitVec.ofNat 16 (s.ip.toNat + w)))

/-- `jump(t)`: a taken jump (40_dispatch.md R41; 43_control.md R54). -/
def jump (t : Addr) (s : State) : Except Abort State :=
  if s.cfg.imemCap ≤ t.toNat then .error (.raise .invalidJumpTarget)
  else .ok (s.setIp t)

end Sys2Proof.Machine
end

