-- ==== Sys2Proof/Machine/Arith.lean ====
section
/-! DEFINITION. The ALU: ADD, SUB, MUL and DIV over 32-bit signed words (spec 44_arith.md R58 to R63). -/

namespace Sys2Proof.Machine

/-- The two-operand frame: s1 is popped first (the top), s2 next; the result is pushed; ip advances by 1 (44_arith.md R58). -/
def aluFrame (op : Word → Word → Except Abort Word) (s : State) : Except Abort State := do
  let (s1, t) ← pop s
  let (s2, u) ← pop t
  let res ← op s2 s1
  let w ← push res u
  advance 1 w

/-- OP of ADD: `wrap32(sint(s1) + sint(s2))` (44_arith.md R60). -/
def aluAdd (s2 s1 : Word) : Word := wrap32 (sint s1 + sint s2)

/-- OP of SUB: `wrap32(sint(s2) − sint(s1))` (44_arith.md R61). -/
def aluSub (s2 s1 : Word) : Word := wrap32 (sint s2 - sint s1)

/-- OP of MUL: `wrap32(sint(s2) × sint(s1))` (44_arith.md R62). -/
def aluMul (s2 s1 : Word) : Word := wrap32 (sint s2 * sint s1)

/-- The quotient of DIV, rounded toward zero and wrapped: `wrap32(trunc(sint(s2) / sint(s1)))` (44_arith.md R63). -/
def aluQuot (s2 s1 : Word) : Word := wrap32 (Int.tdiv (sint s2) (sint s1))

/-- OP of DIV: a zero divisor is DivideByZero (44_arith.md R63). -/
def aluDiv (s2 s1 : Word) : Except Abort Word :=
  if s1 = 0 then .error (.raise .divideByZero) else .ok (aluQuot s2 s1)

/-- ADD (44_arith.md R60). -/
def execAdd (s : State) : Result := s.commit (aluFrame (fun s2 s1 => .ok (aluAdd s2 s1)) s)

/-- SUB (44_arith.md R61). -/
def execSub (s : State) : Result := s.commit (aluFrame (fun s2 s1 => .ok (aluSub s2 s1)) s)

/-- MUL (44_arith.md R62). -/
def execMul (s : State) : Result := s.commit (aluFrame (fun s2 s1 => .ok (aluMul s2 s1)) s)

/-- DIV (44_arith.md R63). -/
def execDiv (s : State) : Result := s.commit (aluFrame aluDiv s)

end Sys2Proof.Machine
end

