-- ==== Sys2Proof/Machine/Jump.lean ====
section
/-! DEFINITION. The control transfers: JMP, JZ and JNZ (spec 43_control.md R54 to R57). -/

namespace Sys2Proof.Machine

/-- JMP t: absolute, with no fall-through (43_control.md R55). -/
def execJmp (t : Addr) (s : State) : Result := s.commit (jump t s)

/-- The frame of JZ and JNZ: pop, then a jump if `taken` holds of the popped value, else `advance(3)`.
The target is checked only when the jump is taken (43_control.md R54, R56, R57). -/
def jumpIf (taken : Word → Bool) (t : Addr) (s : State) : Except Abort State := do
  let (v, u) ← pop s
  if taken v then jump t u else advance 3 u

/-- JZ t: only the word 0 counts as zero (43_control.md R56). -/
def execJz (t : Addr) (s : State) : Result := s.commit (jumpIf (fun v => v == 0) t s)

/-- JNZ t (43_control.md R57). -/
def execJnz (t : Addr) (s : State) : Result := s.commit (jumpIf (fun v => v != 0) t s)

end Sys2Proof.Machine
end

