-- ==== Sys2Proof/Machine/Loop.lean ====
section
/-! DEFINITION. The instructions the loop handles itself: NOP and STOP (spec 40_dispatch.md R43, R44). -/

namespace Sys2Proof.Machine

/-- NOP: `advance(1)` (40_dispatch.md R43). -/
def execNop (s : State) : Result := s.commit (advance 1 s)

/-- STOP: `halt`; ip still holds the address of the STOP (40_dispatch.md R44). -/
def execStop (s : State) : Result := s.commit (.ok s.halt)

end Sys2Proof.Machine
end

