-- ==== Sys2Proof/Machine/Output.lean ====
section
/-! DEFINITION. PRINT, and the host's sink that renders the output events as text (spec 45_output.md R64 to R66). -/

namespace Sys2Proof.Machine

/-- PRINT: the value is consumed and emitted, unless the step faults (45_output.md R65). -/
def execPrint (s : State) : Result := s.commit do
  let (v, t) ← pop s
  advance 1 (t.emit v)

/-- The decimal digits of `n`, most significant first, with no leading zeros; `fuel` digits at most. -/
def decimalDigits : Nat → Nat → List Nat
  | 0, _ => []
  | fuel + 1, n => if n < 10 then [n] else decimalDigits fuel (n / 10) ++ [n % 10]

/-- The character of a decimal digit. -/
def digitChar (d : Nat) : Char := Char.ofNat ('0'.toNat + d)

/-- The base-10 text of `sint(v)`: a leading `-` for a negative value, no leading zeros, no `+`, and `0` for zero (45_output.md R66).
A 32-bit value has at most ten digits. -/
def decimal (v : Word) : List Char :=
  (if sint v < 0 then ['-'] else []) ++ (decimalDigits 10 (sint v).natAbs).map digitChar

/-- The sink's text for a sequence of output events, with OUT_RENDER between or after them (45_output.md R66, D16). -/
def renderOutputs : OutRender → List Word → List Char
  | .separator sep, vs => (vs.map decimal).intersperse sep |>.flatten
  | .terminator fin, vs => (vs.map fun v => decimal v ++ fin).flatten

/-- The text the host's sink has shown for the run so far. -/
def State.outText (s : State) : List Char := renderOutputs s.cfg.outRender s.out

end Sys2Proof.Machine
end

