-- ==== Sys2Proof/Machine/Operands.lean ====
section
/-! DEFINITION. The operand form that can be refused: the register index of LOAD and STORE (spec 30_encoding.md R32; 42_register.md R51).

The other operand forms, PUSH's immediate and the jump target, take every value and are assembled by the decoder (30_encoding.md R31, R33); a target is checked by `jump`, only when the jump is taken (43_control.md R54). -/

namespace Sys2Proof.Machine

/-- The register an index byte selects: x[0] to x[15]; an index of 16 or more is InvalidRegister, not wrapped (42_register.md R51). -/
def regIndex (r : Byte) : Except Abort (Fin 16) :=
  if h : r.toNat < 16 then .ok ⟨r.toNat, h⟩ else .error (.raise .invalidRegister)

end Sys2Proof.Machine
end

