-- ==== Sys2Proof/Machine/Register.lean ====
section
/-! DEFINITION. The register instructions: LOAD and STORE (spec 42_register.md R51 to R53). -/

namespace Sys2Proof.Machine

/-- LOAD r (42_register.md R52). -/
def execLoad (r : Byte) (s : State) : Result := s.commit do
  let k ← regIndex r
  let t ← push (s.reg k) s
  advance 2 t

/-- STORE r: the index check comes before the pop (42_register.md R53). -/
def execStore (r : Byte) (s : State) : Result := s.commit do
  let k ← regIndex r
  let (v, t) ← pop s
  advance 2 (t.setReg k v)

end Sys2Proof.Machine
end

