-- ==== Sys2Proof/Machine/Stack.lean ====
section
/-! DEFINITION. The stack instructions: PUSH and POP (spec 41_stack.md R49, R50). -/

namespace Sys2Proof.Machine

/-- PUSH imm32 (41_stack.md R49). -/
def execPush (imm : Word) (s : State) : Result := s.commit do
  let t ← push imm s
  advance 5 t

/-- POP: the value is discarded, the vacated slot keeps it (41_stack.md R50). -/
def execPop (s : State) : Result := s.commit do
  let (_, t) ← pop s
  advance 1 t

end Sys2Proof.Machine
end

