-- ==== Sys2Proof/Syntax.lean ====
section
/-! DEFINITION. The instructions of SimpleVM-14: one constructor per row of spec/opcode_table.json (30_encoding.md R29, R30). -/

namespace Sys2Proof

/-- The 14 instructions with their operands as the encoding carries them.
A register index is the whole unsigned byte, not reduced modulo 16 (30_encoding.md R32). -/
inductive Instr where
  /-- NOP (40_dispatch.md R43). -/
  | nop
  /-- PUSH imm32 (41_stack.md R49). -/
  | push (imm : Word)
  /-- POP (41_stack.md R50). -/
  | pop
  /-- LOAD r (42_register.md R52). -/
  | load (r : Byte)
  /-- STORE r (42_register.md R53). -/
  | store (r : Byte)
  /-- JMP t (43_control.md R55). -/
  | jmp (t : Addr)
  /-- JZ t (43_control.md R56). -/
  | jz (t : Addr)
  /-- JNZ t (43_control.md R57). -/
  | jnz (t : Addr)
  /-- ADD (44_arith.md R60). -/
  | add
  /-- SUB (44_arith.md R61). -/
  | sub
  /-- MUL (44_arith.md R62). -/
  | mul
  /-- DIV (44_arith.md R63). -/
  | div
  /-- PRINT (45_output.md R65). -/
  | print
  /-- STOP (40_dispatch.md R44). -/
  | stop
  deriving DecidableEq, Repr

end Sys2Proof
end

