-- ==== Sys2Proof/Machine/Dispatch.lean ====
section
/-! DEFINITION. The dispatch: one arm per instruction, each one call of its meaning (spec 40_dispatch.md R38). -/

namespace Sys2Proof.Machine

/-- Execute the rule for the instruction (40_dispatch.md R38). -/
def exec (i : Instr) (s : State) : Host.Outcome State Fault Refusal :=
  match i with
  | .nop => Sys2Proof.Machine.execNop s
  | .push imm => Sys2Proof.Machine.execPush imm s
  | .pop => Sys2Proof.Machine.execPop s
  | .load r => Sys2Proof.Machine.execLoad r s
  | .store r => Sys2Proof.Machine.execStore r s
  | .jmp t => Sys2Proof.Machine.execJmp t s
  | .jz t => Sys2Proof.Machine.execJz t s
  | .jnz t => Sys2Proof.Machine.execJnz t s
  | .add => Sys2Proof.Machine.execAdd s
  | .sub => Sys2Proof.Machine.execSub s
  | .mul => Sys2Proof.Machine.execMul s
  | .div => Sys2Proof.Machine.execDiv s
  | .print => Sys2Proof.Machine.execPrint s
  | .stop => Sys2Proof.Machine.execStop s

end Sys2Proof.Machine
end

