-- ==== Sys2Proof/WellFormed.lean ====
section
/-! DEFINITION. Which operands the spec calls valid (30_encoding.md R34, R37; 42_register.md R51; 43_control.md R54).

An ill-formed instruction still decodes and runs: its meaning takes the fault the spec names for it. -/

namespace Sys2Proof

/-- The register check: a register index is 0..15 (30_encoding.md R34, R37; 42_register.md R51). -/
def Instr.wellFormed : Instr → Bool
  | .load r => r.toNat < 16
  | .store r => r.toNat < 16
  | .nop | .push _ | .pop | .jmp _ | .jz _ | .jnz _ | .add | .sub | .mul | .div | .print | .stop => true

/-- The target check: "A target t is valid if and only if t < IMEM_CAP" (43_control.md R54). -/
def Instr.targetValid (c : Config) : Instr → Bool
  | .jmp t => t.toNat < c.imemCap
  | .jz t => t.toNat < c.imemCap
  | .jnz t => t.toNat < c.imemCap
  | .nop | .push _ | .pop | .load _ | .store _ | .add | .sub | .mul | .div | .print | .stop => true

/-- Every operand is one the core accepts: the two exceptions of 30_encoding.md R34 are excluded. -/
def Instr.wellFormedIn (c : Config) (i : Instr) : Bool :=
  i.wellFormed && i.targetValid c

end Sys2Proof
end

