-- ==== Sys2Proof/Decode.lean ====
section
/-! DEFINITION. The opcode map, the decoder from bytes, the encoder to bytes, and the mnemonic table (spec 30_encoding.md R29 to R37; 40_dispatch.md R39). -/

namespace Sys2Proof

/-- "one of the 14 opcode variants" (40_dispatch.md R38, R39). -/
inductive Opcode where
  | nop | push | pop | load | store | jmp | jz | jnz | add | sub | mul | div | print | stop
  deriving DecidableEq, Repr

/-- Why no instruction is read from a sequence of bytes. -/
inductive DecodeError where
  /-- There is no opcode byte. -/
  | noByte
  /-- The opcode byte is 14..255 (30_encoding.md R34: InvalidOpcode). -/
  | illegalOpcode (b : Byte)
  /-- The opcode is legal and its operand bytes are not all there (40_dispatch.md R40: FetchOutOfBounds). -/
  | truncated (o : Opcode)
  deriving DecidableEq, Repr

/-- The opcode byte of each instruction (30_encoding.md R30). -/
def Opcode.byte : Opcode → Byte
  | .nop => 0 | .push => 1 | .pop => 2 | .load => 3 | .store => 4 | .jmp => 5 | .jz => 6 | .jnz => 7
  | .add => 8 | .sub => 9 | .mul => 10 | .div => 11 | .print => 12 | .stop => 13

/-- The opcode of a byte, or none: "The whole byte is compared" (30_encoding.md R30). -/
def Opcode.ofByte (b : Byte) : Option Opcode :=
  match b.toNat with
  | 0 => some .nop | 1 => some .push | 2 => some .pop | 3 => some .load | 4 => some .store
  | 5 => some .jmp | 6 => some .jz | 7 => some .jnz | 8 => some .add | 9 => some .sub
  | 10 => some .mul | 11 => some .div | 12 => some .print | 13 => some .stop
  | _ => none

/-- The length in bytes of each instruction, given by the opcode alone (30_encoding.md R29, R30, R35). -/
def Opcode.width : Opcode → Nat
  | .push => 5
  | .jmp | .jz | .jnz => 3
  | .load | .store => 2
  | .nop | .pop | .add | .sub | .mul | .div | .print | .stop => 1

/-- The longest instruction, PUSH (30_encoding.md R29). -/
def maxWidth : Nat := 5

/-- PUSH's immediate from bytes 1 to 4, the byte at the lower address less significant (30_encoding.md R31; 20_memory.md R23). -/
def imm32 (b0 b1 b2 b3 : Byte) : Word := b3 ++ b2 ++ b1 ++ b0

/-- A jump target from bytes 1 and 2, little-endian (30_encoding.md R33; 20_memory.md R23). -/
def target16 (lo hi : Byte) : Addr := hi ++ lo

/-- The operand bytes after an opcode, by format (30_encoding.md R29); none when they are not all there. -/
def operands : Opcode → List Byte → Option (Instr × List Byte)
  | .nop, bs => some (.nop, bs)
  | .push, b0 :: b1 :: b2 :: b3 :: bs => some (.push (imm32 b0 b1 b2 b3), bs)
  | .push, _ => none
  | .pop, bs => some (.pop, bs)
  | .load, r :: bs => some (.load r, bs)
  | .load, [] => none
  | .store, r :: bs => some (.store r, bs)
  | .store, [] => none
  | .jmp, lo :: hi :: bs => some (.jmp (target16 lo hi), bs)
  | .jmp, _ => none
  | .jz, lo :: hi :: bs => some (.jz (target16 lo hi), bs)
  | .jz, _ => none
  | .jnz, lo :: hi :: bs => some (.jnz (target16 lo hi), bs)
  | .jnz, _ => none
  | .add, bs => some (.add, bs)
  | .sub, bs => some (.sub, bs)
  | .mul, bs => some (.mul, bs)
  | .div, bs => some (.div, bs)
  | .print, bs => some (.print, bs)
  | .stop, bs => some (.stop, bs)

/-- The decoder: the opcode byte first, then its operand bytes; the instruction and the bytes after it (40_dispatch.md R39). -/
def decode : List Byte → Except DecodeError (Instr × List Byte)
  | [] => .error .noByte
  | b :: bs =>
    match Opcode.ofByte b with
    | none => .error (.illegalOpcode b)
    | some o =>
      match operands o bs with
      | none => .error (.truncated o)
      | some r => .ok r

/-- The opcode of an instruction (30_encoding.md R30). -/
def Instr.opcode : Instr → Opcode
  | .nop => .nop | .push _ => .push | .pop => .pop | .load _ => .load | .store _ => .store
  | .jmp _ => .jmp | .jz _ => .jz | .jnz _ => .jnz | .add => .add | .sub => .sub
  | .mul => .mul | .div => .div | .print => .print | .stop => .stop

/-- The length in bytes of an instruction (30_encoding.md R29). -/
def Instr.width (i : Instr) : Nat := i.opcode.width

/-- The operand bytes of an instruction in address order (30_encoding.md R29, R31 to R33). -/
def Instr.operandBytes : Instr → List Byte
  | .push imm => [imm.extractLsb' 0 8, imm.extractLsb' 8 8, imm.extractLsb' 16 8, imm.extractLsb' 24 8]
  | .load r => [r]
  | .store r => [r]
  | .jmp t => [t.extractLsb' 0 8, t.extractLsb' 8 8]
  | .jz t => [t.extractLsb' 0 8, t.extractLsb' 8 8]
  | .jnz t => [t.extractLsb' 0 8, t.extractLsb' 8 8]
  | .nop | .pop | .add | .sub | .mul | .div | .print | .stop => []

/-- The encoder: the bytes of an instruction in address order (30_encoding.md R29, R30). -/
def encode (i : Instr) : List Byte := i.opcode.byte :: i.operandBytes

/-- The bytes of an instruction given as one number whose bit 0 is the least significant bit of the first byte; bits from `nbits` up are 0. -/
def tableBytes (nbits w : Nat) : List Byte :=
  [0, 1, 2, 3, 4].map fun k => BitVec.ofNat 8 ((w % 2 ^ nbits) / 2 ^ (8 * k))

/-- The instruction the decoder reads from a word numbered as spec/opcode_table.json numbers its bits (log 19). -/
def decodeTableWord (nbits w : Nat) : Option Instr :=
  match decode (tableBytes nbits w) with
  | .ok (i, _) => some i
  | .error _ => none

/-- The mnemonic of an opcode, in lower case (30_encoding.md R36). -/
def Opcode.mnemonic : Opcode → String
  | .nop => "nop" | .push => "push" | .pop => "pop" | .load => "load" | .store => "store"
  | .jmp => "jmp" | .jz => "jz" | .jnz => "jnz" | .add => "add" | .sub => "sub"
  | .mul => "mul" | .div => "div" | .print => "print" | .stop => "stop"

/-- The 14 opcodes in the order of their numbers (30_encoding.md R30). -/
def Opcode.all : List Opcode :=
  [.nop, .push, .pop, .load, .store, .jmp, .jz, .jnz, .add, .sub, .mul, .div, .print, .stop]

/-- The mnemonic table: matched exactly, as lower case; "none" for a string not in the list (30_encoding.md R36, D21).
It is not part of the execution path. -/
def Opcode.ofMnemonic (m : String) : Option Opcode := Opcode.all.find? fun o => o.mnemonic == m

/-- The operand of an assembly line after its characters are read: a decimal integer, or a hex pattern (30_encoding.md R37). -/
inductive AsmOperand where
  | dec (n : Int)
  | hex (n : Nat)
  deriving DecidableEq, Repr

/-- The operand an instruction is written with, if its mnemonic takes one (30_encoding.md R37). -/
def Instr.asmOperand : Instr → Option AsmOperand
  | .push imm => some (.dec (sint imm))
  | .load r => some (.dec r.toNat)
  | .store r => some (.dec r.toNat)
  | .jmp t => some (.dec t.toNat)
  | .jz t => some (.dec t.toNat)
  | .jnz t => some (.dec t.toNat)
  | .nop | .pop | .add | .sub | .mul | .div | .print | .stop => none

/-- `push <int>`: a decimal integer in [−2^31, 2^31−1], or hex giving the 32-bit pattern (30_encoding.md R37). -/
def asmImm : AsmOperand → Option Word
  | .dec n => if -2 ^ 31 ≤ n ∧ n < 2 ^ 31 then some (wrap32 n) else none
  | .hex n => if n < 2 ^ 32 then some (BitVec.ofNat 32 n) else none

/-- A register operand: a decimal register number, 0..15 (30_encoding.md R37). -/
def asmRegister : AsmOperand → Option Byte
  | .dec n => if 0 ≤ n ∧ n ≤ 15 then some (BitVec.ofInt 8 n) else none
  | .hex _ => none

/-- A jump operand: a decimal or hex absolute byte address, 0..65535 (30_encoding.md R37). -/
def asmTarget : AsmOperand → Option Addr
  | .dec n => if 0 ≤ n ∧ n ≤ 65535 then some (BitVec.ofInt 16 n) else none
  | .hex n => if n ≤ 65535 then some (BitVec.ofNat 16 n) else none

/-- One assembly line, its mnemonic and its operand, as an instruction; none where R37's form does not allow it.
The line's characters, labels and comments are the assembler's, which 00_scope.md section 3 leaves out (log 20). -/
def assemble (m : String) (operand : Option AsmOperand) : Option Instr :=
  match Opcode.ofMnemonic m, operand with
  | some .push, some n => (asmImm n).map .push
  | some .load, some n => (asmRegister n).map .load
  | some .store, some n => (asmRegister n).map .store
  | some .jmp, some n => (asmTarget n).map .jmp
  | some .jz, some n => (asmTarget n).map .jz
  | some .jnz, some n => (asmTarget n).map .jnz
  | some .nop, none => some .nop
  | some .pop, none => some .pop
  | some .add, none => some .add
  | some .sub, none => some .sub
  | some .mul, none => some .mul
  | some .div, none => some .div
  | some .print, none => some .print
  | some .stop, none => some .stop
  | _, _ => none

end Sys2Proof
end

