-- ==== Sys2Proof/Machine/Fetch.lean ====
section
/-! DEFINITION. The beginning of a step: the trace snapshot, the phase, and fetching an instruction's bytes (spec 40_dispatch.md R38 to R40; 60_exceptions.md R75; 70_reset_and_hazards.md R80). -/

namespace Sys2Proof.Machine

/-- The bytes of the store from ip on, at most `n`, none at or above IMEM_CAP. -/
def State.bytesAtIp (s : State) (n : Nat) : List Byte :=
  Memory.bytes s.imem s.ip.toNat (min n (s.cfg.imemCap - s.ip.toNat))

/-- Fetch and decode: the opcode byte selects the instruction; an illegal opcode raises InvalidOpcode, an instruction that
extends beyond the store raises FetchOutOfBounds before any operand byte is used (40_dispatch.md R38 to R40). -/
def fetch (s : State) : Except Abort Instr :=
  match decode (s.bytesAtIp maxWidth) with
  | .ok (i, _) => .ok i
  | .error (.illegalOpcode _) => .error (.raise .invalidOpcode)
  | .error (.truncated _) => .error (.raise .fetchOutOfBounds)
  | .error .noByte => .error (.absent .ipOutsideStore)

/-- What the trace port presents: ip, sp, x, the window of instruction bytes from ip, and the first stack slots (60_exceptions.md R75). -/
def State.snapshot (s : State) : Snapshot where
  ip := s.ip
  sp := s.sp
  x := s.x
  window := s.bytesAtIp s.cfg.traceWindow
  slots := s.stk.take s.cfg.traceStackN

/-- What every step does before its fetch: the host's phase becomes STARTED (70_reset_and_hazards.md R80), and the trace port,
if it is enabled, presents the snapshot of the state the step starts from (60_exceptions.md R75). No core state changes. -/
def State.startStep (s : State) : State :=
  { s with
    phase := .started
    trace := if s.cfg.traceOn then s.trace ++ [s.snapshot] else s.trace }

/-- Put bytes into the store from ip on; those that would stand at or above IMEM_CAP have no place and are dropped (log 19). -/
def State.placeAtIp (s : State) (bytes : List Byte) : State :=
  { s with imem := Memory.writeBytes s.imem s.ip.toNat (bytes.take (s.cfg.imemCap - s.ip.toNat)) }

end Sys2Proof.Machine
end

