-- ==== Sys2Proof/Machine/Step.lean ====
section
/-! DEFINITION. One step of the core: fetch, decode, execute, commit (spec 40_dispatch.md R38, R46). -/

namespace Sys2Proof.Machine

/-- One step: defined only while STATE = RUNNING (40_dispatch.md R38, R46); a step asked for otherwise is refused (70_reset_and_hazards.md R80). -/
def step (s : State) : Host.Outcome State Fault Refusal :=
  match s.runState with
  | .running =>
    match fetch s with
    | .ok i => exec i s.startStep
    | .error e => s.startStep.aborted e
  | .halted => .refused .coreHalted
  | .faulted => .refused .coreFaulted
  | .reserved => .refused .coreStateReserved

/-- The state with an instruction's bytes where the next step fetches, everything else as it is (log 19). -/
def State.withFetchWord (s : State) (nbits w : Nat) : State := s.placeAtIp (tableBytes nbits w)

end Sys2Proof.Machine
end

