-- ==== Sys2Proof/Machine/HostPort.lean ====
section
/-! DEFINITION. The host's operations on the core: reset, load, and run with a step budget (spec 70_reset_and_hazards.md R78 to R83). -/

namespace Sys2Proof.Machine

/-- `reset`: every piece of core state at its reset value, phase LOADABLE; the parameters stay (70_reset_and_hazards.md R78).
A new run starts, so the observations of the old one are dropped (log 2). -/
def State.hostReset (s : State) : State := State.resetWith s.cfg

/-- What the host's load answers (70_reset_and_hazards.md R79). -/
inductive LoadReport where
  /-- Ok. -/
  | ok
  /-- More bytes than the store has; imem is unchanged. -/
  | programTooLarge
  /-- The first step has been taken; there is no load any more (D17, U1). -/
  | refused
  deriving DecidableEq, Repr

/-- `load(bytes)`: the program at offset 0 and zero after it; ip, sp, x, stk and status are unchanged (70_reset_and_hazards.md R79). -/
def State.load (bytes : List Byte) (s : State) : LoadReport × State :=
  match s.phase with
  | .started => (.refused, s)
  | .loadable =>
    if s.cfg.imemCap < bytes.length then (.programTooLarge, s)
    else (.ok, { s with imem := Memory.ofBytes bytes })

/-- Which of its ends a run came to (70_reset_and_hazards.md R80, R86). -/
inductive RunEnd where
  /-- STATE is HALTED: a clean end. -/
  | halted
  /-- STATE is FAULTED, with FCODE and FIP. -/
  | faulted (fcode : BitVec 4) (fip : Addr)
  /-- The budget is spent and STATE is RUNNING: the run is not over. -/
  | budgetSpent
  /-- The model stopped in a state the spec excludes (log 3, log 4). -/
  | stuck
  deriving DecidableEq, Repr

/-- What a run that takes no further step reports: STATE says which end it is; a RUNNING core's budget is spent (70_reset_and_hazards.md R80). -/
def State.runEnd (s : State) : RunEnd :=
  match s.runState with
  | .running => .budgetSpent
  | .halted => .halted
  | .faulted => .faulted (fcodeField s.status) (fipField s.status)
  | .reserved => .stuck

/-- `run(budget)`: steps until STATE is HALTED or FAULTED or `budget` steps have been taken; which of these happened, and the state left (70_reset_and_hazards.md R80).
A run asked for while STATE is not RUNNING takes no step (40_dispatch.md R46) and reports the state it finds (the report: DESIGN CHOICE, log 18). -/
def State.run : Nat → State → RunEnd × State
  | 0, s => (s.runEnd, s)
  | n + 1, s =>
    match step s with
    | .next t => State.run n t
    | .fault _ => (.stuck, s)
    | .refused _ => (s.runEnd, s)

/-- The observation of a run at its end (70_reset_and_hazards.md R86). -/
inductive Observation where
  /-- A clean end: the output sequence and the final ip, sp, x and live stack. -/
  | clean (out : List Word) (ip : Addr) (sp : Nat) (x : Vector Word 16) (live : List Word)
  /-- A fault: FCODE, FIP and the output emitted before it. -/
  | fault (fcode : BitVec 4) (fip : Addr) (out : List Word)
  /-- The run is not over. -/
  | unfinished
  deriving DecidableEq, Repr

/-- The live slots from the bottom up (00_scope.md R6; 10_state.md R13). -/
def State.live (s : State) : List Word := s.stk.take s.sp

/-- What a run left in `s` shows (70_reset_and_hazards.md R86): dead slots and the trace are no part of it. -/
def State.observe (s : State) : Observation :=
  match s.runState with
  | .halted => .clean s.out s.ip s.sp s.x s.live
  | .faulted => .fault (fcodeField s.status) (fipField s.status) s.out
  | .running => .unfinished
  | .reserved => .unfinished

end Sys2Proof.Machine
end

