-- ==== Sys2Proof/Safety.lean ====
section
/-! DEFINITION. What the claims are stated in: the spec's state type, the invariant of the reached states, and what two states share (spec 10_state.md R10 to R17; 60_exceptions.md R75). -/

namespace Sys2Proof.Machine

/-- The spec's own state type (10_state.md R10, R13; 00_scope.md R3): valid parameters, ip < IMEM_CAP, sp ≤ STACK_CAP, STACK_CAP slots,
and a store in its canonical form with no byte at or above IMEM_CAP. -/
abbrev State.WF (s : State) : Prop :=
  s.cfg.Valid ∧ s.ip.toNat < s.cfg.imemCap ∧ s.sp ≤ s.cfg.stackCap ∧ s.stk.length = s.cfg.stackCap ∧
    Memory.wf s.imem = true ∧ ∀ c ∈ s.imem, c.1 < s.cfg.imemCap

/-- The status register as 10_state.md R17 says it always reads; FIP is the ip of the faulting instruction, which ip keeps (R12). -/
abbrev State.StatusOk (s : State) : Prop :=
  s.runState ≠ .reserved ∧ reservedLow s.status = 0 ∧ reservedHigh s.status = 0 ∧
    (s.runState ≠ .faulted → fcodeField s.status = 0 ∧ fipField s.status = 0) ∧
    (s.runState = .faulted → 1 ≤ (fcodeField s.status).toNat ∧ (fcodeField s.status).toNat ≤ 7 ∧ fipField s.status = s.ip)

/-- What the host may still load into: nothing has run since reset (70_reset_and_hazards.md R78 to R80). -/
abbrev State.FreshIfLoadable (s : State) : Prop :=
  s.phase = .loadable →
    s.ip = 0 ∧ s.sp = 0 ∧ s.x = Vector.replicate 16 0 ∧ s.stk = List.replicate s.cfg.stackCap 0 ∧ s.status = 0 ∧
      s.out = [] ∧ s.trace = []

/-- The invariant of every reached state: the spec's type; sp ≤ STACK_CAP − 2 with the two headroom slots never written (10_state.md R14);
the status register (R17); and nothing has run while the phase is LOADABLE. -/
abbrev State.Inv (s : State) : Prop :=
  s.WF ∧ s.sp + 2 ≤ s.cfg.stackCap ∧
    s.stk[s.cfg.stackCap - 2]? = some 0 ∧ s.stk[s.cfg.stackCap - 1]? = some 0 ∧
    s.StatusOk ∧ s.FreshIfLoadable

/-- `stk[i]`, for a slot the stack has (00_scope.md R6). -/
def State.slot (s : State) (i : Nat) : Word := (s.stk[i]?).getD 0

/-- The opcode byte at ip (40_dispatch.md R39). -/
def State.opByte (s : State) : Byte := Memory.read s.imem s.ip.toNat

/-- The two states differ at most in dead stack slots, and in the trace, which may show dead slots (10_state.md R15; 60_exceptions.md R75). -/
def State.SameLive (s t : State) : Prop :=
  t = { s with stk := t.stk, trace := t.trace } ∧ t.stk.length = s.stk.length ∧ ∀ i, i < s.sp → t.stk[i]? = s.stk[i]?

/-- Two outcomes agree: both next states and related, or the same stop. -/
def Agree (rel : State → State → Prop) : Result → Result → Prop
  | .next s, .next t => rel s t
  | .fault f, .fault g => f = g
  | .refused r, .refused q => r = q
  | _, _ => False

/-- The state with the trace port off and nothing shown, and with another rendering parameter: what only observers see, set aside (60_exceptions.md R75; 45_output.md R66). -/
def State.withoutObservers (s : State) : State :=
  { s with
    trace := []
    cfg := { s.cfg with traceOn := false, traceWindow := 0, traceStackN := 0, outRender := .separator [] } }

/-- The next state of an outcome seen through `f`. -/
def mapNext (f : State → State) : Result → Result
  | .next s => .next (f s)
  | .fault e => .fault e
  | .refused r => .refused r

end Sys2Proof.Machine
end

