-- ==== Sys2Proof/Certificates/Slice0/Obligations.lean ====
section
/-! DEFINITION. The statements about the model, for the provers: each docstring names the rules of spec/ it formalises.

Where a docstring says "the spec's decision D<n>" the clause rests on 92_eei_decisions.md, which marks it as the spec's own choice; the log entry of that decision is named in NOTES.md. -/

open Sys2Proof Sys2Proof.Machine

/-! ## Encoding -/

/-- 30_encoding.md R30 (the widths of NOP and STOP: the spec's decisions D5, D12): the opcode numbers 0 to 13 and the widths in the order of the table, the whole byte compared,
and no opcode above 13; an instruction read from bytes is one of the opcode its first byte numbers. -/
def Obligations.OpcodeMapIsExact : Prop :=
  Opcode.all.map (fun o => (o.mnemonic, o.byte.toNat, o.width)) =
      [("nop", 0, 1), ("push", 1, 5), ("pop", 2, 1), ("load", 3, 2), ("store", 4, 2), ("jmp", 5, 3), ("jz", 6, 3), ("jnz", 7, 3),
        ("add", 8, 1), ("sub", 9, 1), ("mul", 10, 1), ("div", 11, 1), ("print", 12, 1), ("stop", 13, 1)] ∧
    (∀ o, o ∈ Opcode.all) ∧
    (∀ o, Opcode.ofByte o.byte = some o) ∧
    (∀ b o, Opcode.ofByte b = some o → b = o.byte) ∧
    (∀ b : Byte, 13 < b.toNat → Opcode.ofByte b = none) ∧
    (∀ b bs i rest, decode (b :: bs) = .ok (i, rest) → b = i.opcode.byte)

/-- 20_memory.md R23: PUSH's immediate is `Σ byte[i] << (8*i)`, and the target of JMP, JZ and JNZ has its low byte first; for every byte value,
and for the bytes a step fetches, of which byte[i] is `imem[ip+1+i]`. -/
def Obligations.OperandsAreLittleEndian : Prop :=
  (∀ (b0 b1 b2 b3 : Byte) (rest : List Byte), ∃ imm : Word,
      decode (1 :: b0 :: b1 :: b2 :: b3 :: rest) = .ok (.push imm, rest) ∧
        imm.toNat = (b0.toNat <<< 0) + (b1.toNat <<< 8) + (b2.toNat <<< 16) + (b3.toNat <<< 24)) ∧
    (∀ (lo hi : Byte) (rest : List Byte), ∃ t : Addr,
      t.toNat = lo.toNat + (hi.toNat <<< 8) ∧
        decode (5 :: lo :: hi :: rest) = .ok (.jmp t, rest) ∧
        decode (6 :: lo :: hi :: rest) = .ok (.jz t, rest) ∧
        decode (7 :: lo :: hi :: rest) = .ok (.jnz t, rest)) ∧
    (∀ (s : State) (imm : Word), fetch s = .ok (.push imm) →
      imm.toNat = ((Memory.read s.imem (s.ip.toNat + 1)).toNat <<< 0) + ((Memory.read s.imem (s.ip.toNat + 2)).toNat <<< 8) +
        ((Memory.read s.imem (s.ip.toNat + 3)).toNat <<< 16) + ((Memory.read s.imem (s.ip.toNat + 4)).toNat <<< 24)) ∧
    (∀ (s : State) (t : Addr), (fetch s = .ok (.jmp t) ∨ fetch s = .ok (.jz t) ∨ fetch s = .ok (.jnz t)) →
      t.toNat = (Memory.read s.imem (s.ip.toNat + 1)).toNat + ((Memory.read s.imem (s.ip.toNat + 2)).toNat <<< 8))

/-- Every instruction, with every operand at every value, is read back from its bytes, whatever bytes follow (30_encoding.md R29 to R33). -/
def Obligations.DecodeOfEncodeIsInstruction : Prop :=
  ∀ (i : Instr) (rest : List Byte), decode (encode i ++ rest) = .ok (i, rest)

/-- The other direction: bytes that are read as an instruction are that instruction's encoding and then the rest, so no bit of them is ignored (30_encoding.md R29, R30). -/
def Obligations.EncodeOfDecodeIsBytes : Prop :=
  ∀ (bs : List Byte) (i : Instr) (rest : List Byte), decode bs = .ok (i, rest) → bs = encode i ++ rest

/-- 30_encoding.md R34, R35: the length follows from the opcode byte alone; an illegal opcode byte is rejected before its operands count;
a legal one is rejected exactly when fewer bytes are there than its width. -/
def Obligations.DecodeRejectsExactly : Prop :=
  ∀ (b : Byte) (bs : List Byte),
    (13 < b.toNat → decode (b :: bs) = .error (.illegalOpcode b)) ∧
    (∀ o, Opcode.ofByte b = some o → bs.length + 1 < o.width → decode (b :: bs) = .error (.truncated o)) ∧
    (∀ o, Opcode.ofByte b = some o → o.width ≤ bs.length + 1 →
      ∃ i, i.opcode = o ∧ (encode i).length = o.width ∧ decode (b :: bs) = .ok (i, bs.drop (o.width - 1)))

/-- Bytes written out from 30_encoding.md R29, R30 decode to the instructions they stand for (examples of 41_stack.md to 45_output.md). -/
def Obligations.SpecBytesDecode : Prop :=
  decode [0x00] = .ok (.nop, []) ∧
    decode [0x01, 0x78, 0x56, 0x34, 0x12] = .ok (.push 0x12345678, []) ∧
    decode [0x02] = .ok (.pop, []) ∧
    decode [0x03, 0x02] = .ok (.load 2, []) ∧
    decode [0x04, 0x10] = .ok (.store 16, []) ∧
    decode [0x05, 0x10, 0x00] = .ok (.jmp 16, []) ∧
    decode [0x06, 0x63, 0x00] = .ok (.jz 99, []) ∧
    decode [0x07, 0x00, 0x01] = .ok (.jnz 256, []) ∧
    decode [0x08, 0x09] = .ok (.add, [0x09]) ∧
    decode [0x0B] = .ok (.div, []) ∧
    decode [0x0C] = .ok (.print, []) ∧
    decode [0x0D] = .ok (.stop, [])

/-- 30_encoding.md R36, R37 (the spec's decision D21): each lower-case mnemonic maps to its opcode, a string that is none of the 14 maps to
none, a well-formed instruction is the one its own assembly line stands for, and what a line assembles to is well formed and has the line's mnemonic. -/
def Obligations.AssemblyLineRoundTrip : Prop :=
  (∀ o, Opcode.ofMnemonic o.mnemonic = some o) ∧
    (∀ m, (∀ o : Opcode, o.mnemonic ≠ m) → Opcode.ofMnemonic m = none) ∧
    (∀ i : Instr, i.wellFormed = true → assemble i.opcode.mnemonic i.asmOperand = some i) ∧
    ∀ m operand i, assemble m operand = some i → i.wellFormed = true ∧ i.opcode.mnemonic = m

/-! ## The step -/

/-- 40_dispatch.md R38, R39: when the bytes from ip to the end of the store begin with an instruction, a step of a running core is `exec` of
it, on the state whose phase is STARTED and whose trace has the snapshot if the port is on; nothing else is added. -/
def Obligations.StepRunsDecodedInstruction : Prop :=
  (∀ (s : State) (i : Instr) (rest : List Byte), s.runState = .running →
      decode (Memory.bytes s.imem s.ip.toNat (s.cfg.imemCap - s.ip.toNat)) = .ok (i, rest) →
      step s = exec i s.startStep) ∧
    ∀ s : State, s.startStep =
      { s with phase := .started, trace := if s.cfg.traceOn then s.trace ++ [s.snapshot] else s.trace }

/-- 40_dispatch.md R45 (the spec's decision D6): an opcode byte 14..255 faults with InvalidOpcode, ip not advanced, wherever it stands in the store. -/
def Obligations.IllegalOpcodeFaults : Prop :=
  ∀ s : State, s.runState = .running → s.ip.toNat < s.cfg.imemCap → 13 < s.opByte.toNat →
    step s = .next (s.startStep.raised .invalidOpcode)

/-- 40_dispatch.md R40 (the spec's decision D8): an instruction that extends beyond the store faults with FetchOutOfBounds, whatever its operands, the stack or the registers are. -/
def Obligations.InstructionBeyondStoreFaults : Prop :=
  ∀ (s : State) (o : Opcode), s.runState = .running → s.ip.toNat < s.cfg.imemCap →
    Opcode.ofByte s.opByte = some o → s.cfg.imemCap < s.ip.toNat + o.width →
    step s = .next (s.startStep.raised .fetchOutOfBounds)

/-- 00_scope.md R7 and 30_encoding.md R31 to R33: the operands of the instruction a step runs are the little-endian MemRead of the bytes after its opcode, all of them inside the store. -/
def Obligations.FetchedOperandsAreMemReads : Prop :=
  ∀ (s : State) (i : Instr), fetch s = .ok i →
    s.ip.toNat + i.width ≤ s.cfg.imemCap ∧ i.opcode.byte = s.opByte ∧
      match i with
      | .push imm => imm.toNat = Memory.memRead s.imem (s.ip.toNat + 1) 4
      | .load r => r.toNat = Memory.memRead s.imem (s.ip.toNat + 1) 1
      | .store r => r.toNat = Memory.memRead s.imem (s.ip.toNat + 1) 1
      | .jmp t => t.toNat = Memory.memRead s.imem (s.ip.toNat + 1) 2
      | .jz t => t.toNat = Memory.memRead s.imem (s.ip.toNat + 1) 2
      | .jnz t => t.toNat = Memory.memRead s.imem (s.ip.toNat + 1) 2
      | .nop | .pop | .add | .sub | .mul | .div | .print | .stop => True

/-- 40_dispatch.md R46: in HALTED and in FAULTED the core takes no step, a run leaves the state as it is, and the host's reset is what makes it RUNNING again. -/
def Obligations.NoStepAfterHaltOrFault : Prop :=
  ∀ s : State, s.runState = .halted ∨ s.runState = .faulted →
    ((∃ r, step s = .refused r) ∧ ∀ n, (s.run n).2 = s) ∧ s.hostReset.runState = .running

/-! ## Invariants and whole-machine rules -/

/-- Reset meets the invariant, in every valid configuration and in the reference one (10_state.md R21, R14). -/
def Obligations.ResetMeetsInvariant : Prop :=
  (∀ c : Config, c.Valid → (State.resetWith c).Inv) ∧ State.reset.Inv

/-- Every step keeps the invariant: ip < IMEM_CAP (10_state.md R12), sp ≤ STACK_CAP − 2 with unwritten headroom (R14), the status register's
fields (R17), and the store in its canonical form. -/
def Obligations.InvariantKeptByEveryStep : Prop :=
  ∀ s t : State, s.Inv → step s = .next t → t.Inv

/-- The spec's state type alone is kept too: from every state of the type (10_state.md R10), reached or not. -/
def Obligations.StateTypeKeptByEveryStep : Prop :=
  ∀ s t : State, s.WF → step s = .next t → t.WF

/-- From every state of the spec's type a running core answers a next state: the model has no stop of its own where the spec defines a step (40_dispatch.md R38, R42). -/
def Obligations.RunningStepAnswersNext : Prop :=
  ∀ s : State, s.WF → s.runState = .running → ∃ t, step s = .next t

/-- The host's load and reset keep the invariant (70_reset_and_hazards.md R78, R79; load's details are the spec's decision D17). -/
def Obligations.InvariantKeptByHost : Prop :=
  ∀ (s : State) (bytes : List Byte), s.Inv → (s.load bytes).2.Inv ∧ s.hostReset.Inv

/-- 10_state.md R12: a step changes ip in three ways only: past the instruction, to the valid target of a jump, or not at all, and it stays only
where the core stops or a jump targets itself. -/
def Obligations.IpChangesInThreeWays : Prop :=
  ∀ s t : State, s.WF → step s = .next t →
    (t.ip = s.ip ∧ t.runState ≠ .running) ∨
      ∃ i, fetch s = .ok i ∧
        ((t.ip.toNat = s.ip.toNat + i.width ∧ i ≠ .stop) ∨
          ((i = .jmp t.ip ∨ i = .jz t.ip ∨ i = .jnz t.ip) ∧ t.ip.toNat < s.cfg.imemCap))

/-- 10_state.md R14: no step takes sp beyond STACK_CAP − 2, and only PUSH and LOAD raise it; the slots from STACK_CAP − 2 up are not written. -/
def Obligations.HeadroomIsNeverUsed : Prop :=
  ∀ s t : State, s.sp + 2 ≤ s.cfg.stackCap → step s = .next t →
    t.sp + 2 ≤ t.cfg.stackCap ∧
      (s.sp < t.sp → t.sp = s.sp + 1 ∧ ((∃ imm, fetch s = .ok (.push imm)) ∨ ∃ r, fetch s = .ok (.load r))) ∧
      ∀ j, s.cfg.stackCap ≤ j + 2 → t.stk[j]? = s.stk[j]?

/-- 20_memory.md R28: no instruction writes the store, so every fetch of a run sees the loaded bytes. A step leaves the phase STARTED (70_reset_and_hazards.md R80),
and a load in phase STARTED is refused, after the run has HALTED or FAULTED too: that is R79's detail, the spec's decision D17 (log 18). -/
def Obligations.InstructionStoreNeverWritten : Prop :=
  (∀ s t : State, step s = .next t → (∀ a, Memory.read t.imem a = Memory.read s.imem a) ∧ t.imem = s.imem ∧ t.phase = .started) ∧
    (∀ (n : Nat) (s : State), (s.run n).2.imem = s.imem) ∧
    ∀ (s : State) (bytes : List Byte), s.phase = .started → s.load bytes = (.refused, s)

/-- 10_state.md R16: no instruction but STORE writes the register file, and STORE r writes x[r] alone, with the top of the stack. -/
def Obligations.OnlyStoreWritesRegisters : Prop :=
  ∀ s t : State, step s = .next t →
    t.x = s.x ∨ ∃ r : Byte, fetch s = .ok (.store r) ∧ ∃ h : r.toNat < 16, 0 < s.sp ∧
      s.stk[s.sp - 1]? = some (t.reg ⟨r.toNat, h⟩) ∧ ∀ k : Fin 16, k.val ≠ r.toNat → t.reg k = s.reg k

/-- 45_output.md R64 (events: the spec's decision D16): a step sends at most one event, only a PRINT that completes sends it, and it is the popped value, after all earlier ones. -/
def Obligations.OnlyCompletedPrintEmits : Prop :=
  ∀ s t : State, step s = .next t →
    (t.out = s.out ∧ (fetch s = .ok .print → t.runState = .faulted)) ∨
      (fetch s = .ok .print ∧ t.runState = .running ∧ 0 < s.sp ∧ ∃ v, s.stk[s.sp - 1]? = some v ∧ t.out = s.out ++ [v])

/-- 40_dispatch.md R44, R46 and 60_exceptions.md R69 (status layout: the spec's decisions D13, D14): RUNNING is left by STOP, with status 1 in place of STATE, or by a fault, with the fault's status word, and by nothing else. -/
def Obligations.OnlyStopOrFaultEndsRunning : Prop :=
  ∀ s t : State, step s = .next t →
    (t.status = s.status ∧ t.runState = .running) ∨
      (fetch s = .ok .stop ∧ t.runState = .halted) ∨
      (t.runState = .faulted ∧ ∃ k : FaultKind, t.status = faultStatus s.ip k)

/-- 40_dispatch.md R42 (the spec's decision D7): a step that faults changes status and nothing else of the core, and emits nothing. -/
def Obligations.FaultingStepChangesOnlyStatus : Prop :=
  ∀ s t : State, step s = .next t → t.runState = .faulted → ∃ k : FaultKind, t = s.startStep.raised k

/-- 60_exceptions.md R67, R69 and 10_state.md R17 (codes and layout: the spec's decisions D13, D14): the fields of the status word a fault leaves, for each kind and every address. -/
def Obligations.FaultEntryFields : Prop :=
  (∀ (s : State) (k : FaultKind),
      (s.raised k).status.toNat = s.ip.toNat * 2 ^ 16 + k.code.toNat * 2 ^ 8 + 2 ∧
        (s.raised k).runState = .faulted ∧ fcodeField (s.raised k).status = k.code ∧ fipField (s.raised k).status = s.ip ∧
        reservedLow (s.raised k).status = 0 ∧ reservedHigh (s.raised k).status = 0 ∧
        s.raised k = { s with status := (s.raised k).status }) ∧
    [FaultKind.invalidOpcode, .fetchOutOfBounds, .invalidRegister, .stackUnderflow, .stackOverflow, .divideByZero, .invalidJumpTarget].map
      (fun k => k.code.toNat) = [1, 2, 3, 4, 5, 6, 7]

/-! ## The instructions: effect, and every fault in its order -/

/-- 40_dispatch.md R43 (the spec's decisions D5, D8): NOP advances ip by 1 and changes nothing else; at IMEM_CAP − 1 it faults. -/
def Obligations.NopAdvances : Prop :=
  ∀ s : State, s.WF →
    (s.ip.toNat + 1 < s.cfg.imemCap → exec .nop s = .next { s with ip := s.ip + 1 }) ∧
    (s.ip.toNat + 1 = s.cfg.imemCap → exec .nop s = .next (s.raised .fetchOutOfBounds))

/-- 40_dispatch.md R44 (the spec's decision D12): STOP sets STATE to HALTED and changes nothing else, at every address of the store; from a running core with an otherwise clear status the word is 0x00000001.
That STOP keeps the reserved bits, FCODE and FIP of any status is DEDUCED from R44's `status.STATE <- HALTED` (log 15). -/
def Obligations.StopHalts : Prop :=
  ∀ s : State, ∃ st : BitVec 32, exec .stop s = .next { s with status := st } ∧
    stateField st = 1 ∧ reservedLow st = reservedLow s.status ∧ reservedHigh st = reservedHigh s.status ∧
    fcodeField st = fcodeField s.status ∧ fipField st = fipField s.status ∧
    (s.status = 0 → st = 0x00000001#32)

/-- 41_stack.md R49: PUSH writes its immediate to stk[sp], raises sp by 1 and ip by 5, and nothing else; its faults in the order of the rule.
The FetchOutOfBounds clauses rest on the spec's decision D8. -/
def Obligations.PushPushesImmediate : Prop :=
  ∀ (s : State) (imm : Word), s.WF →
    encode (.push imm) = [0x01, imm.extractLsb' 0 8, imm.extractLsb' 8 8, imm.extractLsb' 16 8, imm.extractLsb' 24 8] ∧
    (s.runState = .running → s.opByte = 0x01 → s.cfg.imemCap < s.ip.toNat + 5 →
      step s = .next (s.startStep.raised .fetchOutOfBounds)) ∧
    (s.cfg.stackCap - 2 ≤ s.sp → exec (.push imm) s = .next (s.raised .stackOverflow)) ∧
    (s.sp < s.cfg.stackCap - 2 → s.cfg.imemCap ≤ s.ip.toNat + 5 → exec (.push imm) s = .next (s.raised .fetchOutOfBounds)) ∧
    (s.sp < s.cfg.stackCap - 2 → s.ip.toNat + 5 < s.cfg.imemCap →
      exec (.push imm) s = .next { s with stk := s.stk.set s.sp imm, sp := s.sp + 1, ip := s.ip + 5 })

/-- 41_stack.md R50: POP lowers sp by 1 and advances ip by 1; the vacated slot keeps its value; its faults in order.
The FetchOutOfBounds clause rests on the spec's decision D8. -/
def Obligations.PopDiscardsTop : Prop :=
  ∀ s : State, s.WF →
    encode .pop = [0x02] ∧
    (s.sp = 0 → exec .pop s = .next (s.raised .stackUnderflow)) ∧
    (0 < s.sp → s.ip.toNat + 1 = s.cfg.imemCap → exec .pop s = .next (s.raised .fetchOutOfBounds)) ∧
    (0 < s.sp → s.ip.toNat + 1 < s.cfg.imemCap → exec .pop s = .next { s with sp := s.sp - 1, ip := s.ip + 1 })

/-- 42_register.md R52 (overflow check: the spec's decision D10): LOAD pushes x[r]; its faults in order. -/
def Obligations.LoadPushesRegister : Prop :=
  ∀ (s : State) (r : Byte), s.WF →
    encode (.load r) = [0x03, r] ∧
    (s.runState = .running → s.opByte = 0x03 → s.cfg.imemCap < s.ip.toNat + 2 →
      step s = .next (s.startStep.raised .fetchOutOfBounds)) ∧
    (16 ≤ r.toNat → exec (.load r) s = .next (s.raised .invalidRegister)) ∧
    ∀ h : r.toNat < 16,
      (s.cfg.stackCap - 2 ≤ s.sp → exec (.load r) s = .next (s.raised .stackOverflow)) ∧
      (s.sp < s.cfg.stackCap - 2 → s.cfg.imemCap ≤ s.ip.toNat + 2 → exec (.load r) s = .next (s.raised .fetchOutOfBounds)) ∧
      (s.sp < s.cfg.stackCap - 2 → s.ip.toNat + 2 < s.cfg.imemCap →
        exec (.load r) s = .next { s with stk := s.stk.set s.sp s.x[r.toNat], sp := s.sp + 1, ip := s.ip + 2 })

/-- 42_register.md R53 (the index check before the pop: the spec's decision D11): STORE pops into x[r]; its faults in order. -/
def Obligations.StorePopsIntoRegister : Prop :=
  ∀ (s : State) (r : Byte), s.WF →
    encode (.store r) = [0x04, r] ∧
    (s.runState = .running → s.opByte = 0x04 → s.cfg.imemCap < s.ip.toNat + 2 →
      step s = .next (s.startStep.raised .fetchOutOfBounds)) ∧
    (16 ≤ r.toNat → exec (.store r) s = .next (s.raised .invalidRegister)) ∧
    ∀ h : r.toNat < 16,
      (s.sp = 0 → exec (.store r) s = .next (s.raised .stackUnderflow)) ∧
      (0 < s.sp → s.cfg.imemCap ≤ s.ip.toNat + 2 → exec (.store r) s = .next (s.raised .fetchOutOfBounds)) ∧
      (0 < s.sp → s.ip.toNat + 2 < s.cfg.imemCap →
        exec (.store r) s = .next { s with x := s.x.set r.toNat (s.slot (s.sp - 1)), sp := s.sp - 1, ip := s.ip + 2 })

/-- 43_control.md R55: JMP sets ip to its target whatever ip was, and changes nothing else; a target outside the store is InvalidJumpTarget; no fall-through is checked.
The FetchOutOfBounds clause rests on the spec's decision D8. -/
def Obligations.JmpSetsIp : Prop :=
  ∀ (s : State) (t : Addr), s.WF →
    encode (.jmp t) = [0x05, t.extractLsb' 0 8, t.extractLsb' 8 8] ∧
    (s.runState = .running → s.opByte = 0x05 → s.cfg.imemCap < s.ip.toNat + 3 →
      step s = .next (s.startStep.raised .fetchOutOfBounds)) ∧
    (s.cfg.imemCap ≤ t.toNat → exec (.jmp t) s = .next (s.raised .invalidJumpTarget)) ∧
    (t.toNat < s.cfg.imemCap → exec (.jmp t) s = .next { s with ip := t })

/-- 43_control.md R56: JZ pops, jumps if and only if the popped word is 0, and falls through by 3 otherwise; its faults in order; a target is not checked when the jump is not taken.
That, and the FetchOutOfBounds clauses, rest on the spec's decisions D9, D8. -/
def Obligations.JzJumpsOnZero : Prop :=
  ∀ (s : State) (t : Addr), s.WF →
    encode (.jz t) = [0x06, t.extractLsb' 0 8, t.extractLsb' 8 8] ∧
    (s.runState = .running → s.opByte = 0x06 → s.cfg.imemCap < s.ip.toNat + 3 →
      step s = .next (s.startStep.raised .fetchOutOfBounds)) ∧
    (s.sp = 0 → exec (.jz t) s = .next (s.raised .stackUnderflow)) ∧
    (0 < s.sp → s.slot (s.sp - 1) = 0 → s.cfg.imemCap ≤ t.toNat → exec (.jz t) s = .next (s.raised .invalidJumpTarget)) ∧
    (0 < s.sp → s.slot (s.sp - 1) = 0 → t.toNat < s.cfg.imemCap → exec (.jz t) s = .next { s with sp := s.sp - 1, ip := t }) ∧
    (0 < s.sp → s.slot (s.sp - 1) ≠ 0 → s.cfg.imemCap ≤ s.ip.toNat + 3 → exec (.jz t) s = .next (s.raised .fetchOutOfBounds)) ∧
    (0 < s.sp → s.slot (s.sp - 1) ≠ 0 → s.ip.toNat + 3 < s.cfg.imemCap →
      exec (.jz t) s = .next { s with sp := s.sp - 1, ip := s.ip + 3 })

/-- 43_control.md R57: JNZ pops, jumps if and only if the popped word is not 0, and falls through by 3 otherwise; its faults in order.
The unchecked target of a jump not taken and the FetchOutOfBounds clauses rest on the spec's decisions D9, D8. -/
def Obligations.JnzJumpsOnNonzero : Prop :=
  ∀ (s : State) (t : Addr), s.WF →
    encode (.jnz t) = [0x07, t.extractLsb' 0 8, t.extractLsb' 8 8] ∧
    (s.runState = .running → s.opByte = 0x07 → s.cfg.imemCap < s.ip.toNat + 3 →
      step s = .next (s.startStep.raised .fetchOutOfBounds)) ∧
    (s.sp = 0 → exec (.jnz t) s = .next (s.raised .stackUnderflow)) ∧
    (0 < s.sp → s.slot (s.sp - 1) ≠ 0 → s.cfg.imemCap ≤ t.toNat → exec (.jnz t) s = .next (s.raised .invalidJumpTarget)) ∧
    (0 < s.sp → s.slot (s.sp - 1) ≠ 0 → t.toNat < s.cfg.imemCap → exec (.jnz t) s = .next { s with sp := s.sp - 1, ip := t }) ∧
    (0 < s.sp → s.slot (s.sp - 1) = 0 → s.cfg.imemCap ≤ s.ip.toNat + 3 → exec (.jnz t) s = .next (s.raised .fetchOutOfBounds)) ∧
    (0 < s.sp → s.slot (s.sp - 1) = 0 → s.ip.toNat + 3 < s.cfg.imemCap →
      exec (.jnz t) s = .next { s with sp := s.sp - 1, ip := s.ip + 3 })

/-- 44_arith.md R58, R60: ADD leaves `wrap32(sint(s1) + sint(s2))` in stk[sp−2], lowers sp by 1 and advances ip by 1; the old top slot keeps s1;
StackUnderflow for fewer than two values, then FetchOutOfBounds at the end of the store.
The premise sp < STACK_CAP is weaker than R14's invariant (`InvariantKeptByEveryStep`), which every reached state meets; without it the result's push would not fit.
Wrapping and the FetchOutOfBounds clause rest on the spec's decisions D3, D8. -/
def Obligations.AddWraps : Prop :=
  ∀ s : State, s.WF →
    encode .add = [0x08] ∧
    (s.sp < 2 → exec .add s = .next (s.raised .stackUnderflow)) ∧
    (2 ≤ s.sp → s.sp < s.cfg.stackCap → s.ip.toNat + 1 = s.cfg.imemCap → exec .add s = .next (s.raised .fetchOutOfBounds)) ∧
    (2 ≤ s.sp → s.sp < s.cfg.stackCap → s.ip.toNat + 1 < s.cfg.imemCap →
      exec .add s = .next { s with
        stk := s.stk.set (s.sp - 2) (wrap32 ((s.slot (s.sp - 1)).toInt + (s.slot (s.sp - 2)).toInt)), sp := s.sp - 1, ip := s.ip + 1 })

/-- 44_arith.md R58, R61: SUB leaves `wrap32(sint(s2) − sint(s1))`, s1 the top and s2 below it; faults, premise and decisions as for ADD. -/
def Obligations.SubWraps : Prop :=
  ∀ s : State, s.WF →
    encode .sub = [0x09] ∧
    (s.sp < 2 → exec .sub s = .next (s.raised .stackUnderflow)) ∧
    (2 ≤ s.sp → s.sp < s.cfg.stackCap → s.ip.toNat + 1 = s.cfg.imemCap → exec .sub s = .next (s.raised .fetchOutOfBounds)) ∧
    (2 ≤ s.sp → s.sp < s.cfg.stackCap → s.ip.toNat + 1 < s.cfg.imemCap →
      exec .sub s = .next { s with
        stk := s.stk.set (s.sp - 2) (wrap32 ((s.slot (s.sp - 2)).toInt - (s.slot (s.sp - 1)).toInt)), sp := s.sp - 1, ip := s.ip + 1 })

/-- 44_arith.md R58, R62: MUL leaves the low 32 bits of the exact product; faults, premise and decisions as for ADD. -/
def Obligations.MulWraps : Prop :=
  ∀ s : State, s.WF →
    encode .mul = [0x0A] ∧
    (s.sp < 2 → exec .mul s = .next (s.raised .stackUnderflow)) ∧
    (2 ≤ s.sp → s.sp < s.cfg.stackCap → s.ip.toNat + 1 = s.cfg.imemCap → exec .mul s = .next (s.raised .fetchOutOfBounds)) ∧
    (2 ≤ s.sp → s.sp < s.cfg.stackCap → s.ip.toNat + 1 < s.cfg.imemCap →
      exec .mul s = .next { s with
        stk := s.stk.set (s.sp - 2) (wrap32 ((s.slot (s.sp - 2)).toInt * (s.slot (s.sp - 1)).toInt)), sp := s.sp - 1, ip := s.ip + 1 })

/-- 44_arith.md R63 (wrapping and truncation: the spec's decisions D3, D4): DIV leaves the quotient of s2 by s1 rounded toward zero and wrapped;
StackUnderflow for fewer than two values, then DivideByZero for s1 = 0, then FetchOutOfBounds; the premise sp < STACK_CAP as for ADD. -/
def Obligations.DivTruncates : Prop :=
  ∀ s : State, s.WF →
    encode .div = [0x0B] ∧
    (s.sp < 2 → exec .div s = .next (s.raised .stackUnderflow)) ∧
    (2 ≤ s.sp → s.slot (s.sp - 1) = 0 → exec .div s = .next (s.raised .divideByZero)) ∧
    (2 ≤ s.sp → s.sp < s.cfg.stackCap → s.slot (s.sp - 1) ≠ 0 → s.ip.toNat + 1 = s.cfg.imemCap → exec .div s = .next (s.raised .fetchOutOfBounds)) ∧
    (2 ≤ s.sp → s.sp < s.cfg.stackCap → s.slot (s.sp - 1) ≠ 0 → s.ip.toNat + 1 < s.cfg.imemCap →
      exec .div s = .next { s with
        stk := s.stk.set (s.sp - 2) (wrap32 (Int.tdiv (s.slot (s.sp - 2)).toInt (s.slot (s.sp - 1)).toInt)), sp := s.sp - 1, ip := s.ip + 1 })

/-- 45_output.md R65: PRINT consumes the top and emits it, after the earlier events; on a fault nothing is emitted.
The FetchOutOfBounds clause and the all-or-nothing fault rest on the spec's decisions D8, D7. -/
def Obligations.PrintEmitsTop : Prop :=
  ∀ s : State, s.WF →
    encode .print = [0x0C] ∧
    (s.sp = 0 → exec .print s = .next (s.raised .stackUnderflow)) ∧
    (0 < s.sp → s.ip.toNat + 1 = s.cfg.imemCap → exec .print s = .next (s.raised .fetchOutOfBounds)) ∧
    (0 < s.sp → s.ip.toNat + 1 < s.cfg.imemCap →
      exec .print s = .next { s with out := s.out ++ [s.slot (s.sp - 1)], sp := s.sp - 1, ip := s.ip + 1 })

/-! ## Frames -/

/-- NOP, JMP and STOP: from every state, no register, no stack slot, not sp, no byte of the store, no output, parameter, phase or trace changes; status
changes only by a fault entry, or by STOP in its STATE field (40_dispatch.md R43, R44; 43_control.md R55). That STOP leaves bits 31 to 2 of status alone is
DEDUCED from R44's `status.STATE <- HALTED` (log 15). -/
def Obligations.FrameOfNopJmpStop : Prop :=
  ∀ (s t : State) (i : Instr), (i = .nop ∨ (∃ a, i = .jmp a) ∨ i = .stop) → exec i s = .next t →
    t.x = s.x ∧ t.stk = s.stk ∧ t.sp = s.sp ∧ (∀ a, Memory.read t.imem a = Memory.read s.imem a) ∧
      t.out = s.out ∧ t.cfg = s.cfg ∧ t.phase = s.phase ∧ t.trace = s.trace ∧
      (t.status = s.status ∨ (∃ k, t = s.raised k) ∨ (i = .stop ∧ t.status.extractLsb' 2 30 = s.status.extractLsb' 2 30))

/-- POP, JZ, JNZ and PRINT: sp falls by at most 1 and no slot is written, not even the vacated one; only PRINT adds an output event; nothing else but ip
changes, unless the step faults (41_stack.md R50; 43_control.md R56, R57; 45_output.md R65). -/
def Obligations.FrameOfConsumers : Prop :=
  ∀ (s t : State) (i : Instr), (i = .pop ∨ (∃ a, i = .jz a) ∨ (∃ a, i = .jnz a) ∨ i = .print) → exec i s = .next t →
    t.x = s.x ∧ t.stk = s.stk ∧ (∀ a, Memory.read t.imem a = Memory.read s.imem a) ∧
      t.cfg = s.cfg ∧ t.phase = s.phase ∧ t.trace = s.trace ∧
      ((∃ k, t = s.raised k) ∨
        (t.status = s.status ∧ t.sp + 1 = s.sp ∧
          (t.out = s.out ∨ (i = .print ∧ ∃ v, s.stk[s.sp - 1]? = some v ∧ t.out = s.out ++ [v]))))

/-- STORE r: every register but x[r] keeps its value, sp falls by 1, no slot is written; nothing else but ip changes, unless the step faults (42_register.md R53). -/
def Obligations.FrameOfStore : Prop :=
  ∀ (s t : State) (r : Byte), exec (.store r) s = .next t →
    (∀ k : Fin 16, k.val ≠ r.toNat → t.reg k = s.reg k) ∧ t.stk = s.stk ∧ (∀ a, Memory.read t.imem a = Memory.read s.imem a) ∧
      t.out = s.out ∧ t.cfg = s.cfg ∧ t.phase = s.phase ∧ t.trace = s.trace ∧
      ((∃ k, t = s.raised k) ∨ (t.status = s.status ∧ t.sp + 1 = s.sp))

/-- PUSH and LOAD: every slot but stk[sp] keeps its value, sp rises by 1, no register is written; nothing else but ip changes, unless the step faults (41_stack.md R49; 42_register.md R52). -/
def Obligations.FrameOfPushLoad : Prop :=
  ∀ (s t : State) (i : Instr), ((∃ imm, i = .push imm) ∨ ∃ r, i = .load r) → exec i s = .next t →
    t.x = s.x ∧ (∀ j, j ≠ s.sp → t.stk[j]? = s.stk[j]?) ∧ (∀ a, Memory.read t.imem a = Memory.read s.imem a) ∧
      t.out = s.out ∧ t.cfg = s.cfg ∧ t.phase = s.phase ∧ t.trace = s.trace ∧
      ((∃ k, t = s.raised k) ∨ (t.status = s.status ∧ t.sp = s.sp + 1))

/-- ADD, SUB, MUL and DIV: every slot but stk[sp−2] keeps its value (the old top keeps s1), sp falls by 1, no register is written; nothing else but ip
changes, unless the step faults (44_arith.md R58). -/
def Obligations.FrameOfArithmetic : Prop :=
  ∀ (s t : State) (i : Instr), (i = .add ∨ i = .sub ∨ i = .mul ∨ i = .div) → exec i s = .next t →
    t.x = s.x ∧ (∀ j, j + 2 ≠ s.sp → t.stk[j]? = s.stk[j]?) ∧ (∀ a, Memory.read t.imem a = Memory.read s.imem a) ∧
      t.out = s.out ∧ t.cfg = s.cfg ∧ t.phase = s.phase ∧ t.trace = s.trace ∧
      ((∃ k, t = s.raised k) ∨ (t.status = s.status ∧ t.sp + 1 = s.sp ∧ 2 ≤ s.sp))

/-! ## Properties over several instructions, and arithmetic -/

/-- 95_test_vectors.md W1 (41_stack.md R49, R50): PUSH v and then POP leave sp as it was and ip advanced by 6, with v on top between the two. -/
def Obligations.PushThenPopRestoresSp : Prop :=
  ∀ (s : State) (v : Word), s.WF → s.sp < s.cfg.stackCap - 2 → s.ip.toNat + 6 < s.cfg.imemCap →
    ∃ t u : State, exec (.push v) s = .next t ∧ t.stk[t.sp - 1]? = some v ∧ exec .pop t = .next u ∧
      u.sp = s.sp ∧ u.ip.toNat = s.ip.toNat + 6 ∧ u.live = s.live ∧ u.x = s.x

/-- 95_test_vectors.md W3 (42_register.md R52, R53): STORE r and then LOAD r leave the stored value on top and in x[r], for every r in 0..15. -/
def Obligations.StoreThenLoadLeavesValue : Prop :=
  ∀ (s : State) (r : Byte) (h : r.toNat < 16), s.WF → 0 < s.sp → s.sp + 2 ≤ s.cfg.stackCap → s.ip.toNat + 4 < s.cfg.imemCap →
    ∃ t u : State, exec (.store r) s = .next t ∧ exec (.load r) t = .next u ∧
      u.sp = s.sp ∧ u.live = s.live ∧ u.reg ⟨r.toNat, h⟩ = s.slot (s.sp - 1) ∧ u.ip.toNat = s.ip.toNat + 4

/-- 44_arith.md R59 with 00_scope.md R5 (wrapping: the spec's decision D3): the signed value ADD, SUB and MUL leave on top is the exact result brought into range by `((n + 2^31) mod 2^32) − 2^31`; no overflow faults. -/
def Obligations.ArithmeticWrapsExactResult : Prop :=
  ∀ (s : State) (i : Instr) (f : Int → Int → Int),
    ((i = .add ∧ f = (· + ·)) ∨ (i = .sub ∧ f = (· - ·)) ∨ (i = .mul ∧ f = (· * ·))) →
    s.WF → 2 ≤ s.sp → s.sp < s.cfg.stackCap → s.ip.toNat + 1 < s.cfg.imemCap →
    ∃ t : State, exec i s = .next t ∧ t.runState = s.runState ∧
      (t.slot (t.sp - 1)).toInt = (f (s.slot (s.sp - 2)).toInt (s.slot (s.sp - 1)).toInt + 2 ^ 31) % 2 ^ 32 - 2 ^ 31

/-- 44_arith.md R63 (the spec's decisions D3, D4): but for INT_MIN / −1, the quotient DIV leaves is the one rounded toward zero: multiplied back it misses the dividend by less
than the divisor's size, on the dividend's side of zero; and INT_MIN / −1 is INT_MIN. -/
def Obligations.QuotientRoundsTowardZero : Prop :=
  ∀ s : State, s.WF → 2 ≤ s.sp → s.sp < s.cfg.stackCap → s.ip.toNat + 1 < s.cfg.imemCap → s.slot (s.sp - 1) ≠ 0 →
    ∃ t : State, exec .div s = .next t ∧
      (s.slot (s.sp - 2) = intMin ∧ s.slot (s.sp - 1) = -1 → t.slot (t.sp - 1) = intMin) ∧
      (¬(s.slot (s.sp - 2) = intMin ∧ s.slot (s.sp - 1) = -1) →
        ∃ rem : Int, (t.slot (t.sp - 1)).toInt * (s.slot (s.sp - 1)).toInt + rem = (s.slot (s.sp - 2)).toInt ∧
          rem.natAbs < (s.slot (s.sp - 1)).toInt.natAbs ∧
          (0 ≤ (s.slot (s.sp - 2)).toInt → 0 ≤ rem) ∧ ((s.slot (s.sp - 2)).toInt ≤ 0 → rem ≤ 0))

/-! ## What cannot be told apart -/

/-- 10_state.md R15 (slots kept: the spec's decision D15): no instruction reads a dead slot: states that differ only in dead slots (and the trace) step to states that do, or stop alike, and show the same observation. -/
def Obligations.DeadSlotsInfluenceNothing : Prop :=
  (∀ s t : State, s.SameLive t → Agree State.SameLive (step s) (step t)) ∧
    (∀ (n : Nat) (s t : State), s.SameLive t → (s.run n).1 = (t.run n).1 ∧ (s.run n).2.observe = (t.run n).2.observe)

/-- 60_exceptions.md R75 and 45_output.md R66 (the spec's decisions D18, D16): whether the trace port is on, what it shows, and how outputs are rendered change no step. -/
def Obligations.ObserversChangeNothing : Prop :=
  ∀ s : State, mapNext State.withoutObservers (step s) =
    mapNext State.withoutObservers (step s.withoutObservers)

/-- 60_exceptions.md R75 (moment and extent: the spec's decision D18): with the port on a step that answers adds one snapshot, of the state it starts from; with it off none.
That a step that faults presents its snapshot too is DEDUCED from R75's "before the step's fetch" (log 22). -/
def Obligations.TraceShowsStateBeforeStep : Prop :=
  ∀ s t : State, step s = .next t →
    (s.cfg.traceOn = false → t.trace = s.trace) ∧
    (s.cfg.traceOn = true → ∃ snap : Snapshot, t.trace = s.trace ++ [snap] ∧
      snap.ip = s.ip ∧ snap.sp = s.sp ∧ snap.x = s.x ∧ snap.slots = s.stk.take s.cfg.traceStackN ∧
      snap.window.length = min (s.ip.toNat + s.cfg.traceWindow) s.cfg.imemCap - s.ip.toNat ∧
      ∀ k, k < snap.window.length → snap.window[k]? = some (Memory.read s.imem (s.ip.toNat + k)))

/-! ## The host -/

/-- 70_reset_and_hazards.md R78: reset makes every piece of core state zero and the phase LOADABLE, from every state; the core is RUNNING; and neither a
load nor a run leaves a state that is not RUNNING. -/
def Obligations.ResetZeroesEverything : Prop :=
  ∀ s : State,
    s.hostReset.ip = 0 ∧ s.hostReset.sp = 0 ∧ (∀ r, s.hostReset.reg r = 0) ∧
      s.hostReset.stk.length = s.cfg.stackCap ∧ (∀ i, i < s.cfg.stackCap → s.hostReset.stk[i]? = some 0) ∧
      (∀ a, Memory.read s.hostReset.imem a = 0) ∧ s.hostReset.status = 0 ∧ s.hostReset.runState = .running ∧
      s.hostReset.phase = .loadable ∧ s.hostReset.cfg = s.cfg ∧ State.reset.hostReset = State.reset ∧
      (s.runState ≠ .running → ∀ n, (s.run n).2.runState = s.runState) ∧ ∀ bytes, (s.load bytes).2.runState = s.runState

/-- 70_reset_and_hazards.md R79 (tail, repeated load and refusal: the spec's decision D17): before the first step a program that fits replaces the whole store, zero after it; one too large changes nothing;
after the first step a load is refused. -/
def Obligations.LoadReplacesWholeStore : Prop :=
  ∀ (s : State) (bytes : List Byte),
    (s.phase = .started → s.load bytes = (.refused, s)) ∧
    (s.phase = .loadable → s.cfg.imemCap < bytes.length → s.load bytes = (.programTooLarge, s)) ∧
    (s.phase = .loadable → bytes.length ≤ s.cfg.imemCap →
      ∃ t : State, s.load bytes = (.ok, t) ∧ t = { s with imem := t.imem } ∧
        (∀ (a : Nat) (h : a < bytes.length), Memory.read t.imem a = bytes[a]) ∧
        (∀ a, bytes.length ≤ a → Memory.read t.imem a = 0) ∧
        ∀ (bytes' : List Byte), bytes'.length ≤ s.cfg.imemCap → t.load bytes' = s.load bytes')

/-- 70_reset_and_hazards.md R81 (the spec's decision D17): a run that was stopped with its budget spent and is resumed goes on exactly as if it had not stopped.
A run that ended otherwise is the same whatever budget is added (R80: it takes no more steps); for a core that does not run at the start, what such a run reports is the
model's DESIGN CHOICE (log 18). -/
def Obligations.StoppedRunResumes : Prop :=
  ∀ (m n : Nat) (s : State),
    ((s.run m).1 = .budgetSpent → s.run (m + n) = (s.run m).2.run n) ∧
    ((s.run m).1 ≠ .budgetSpent → s.run (m + n) = s.run m)

/-- 70_reset_and_hazards.md R80, R86 (the spec's decision D17): a run from a state of the spec's type ends HALTED, FAULTED with FCODE and FIP, or with its budget spent and RUNNING, and it reports which.
Where the core is HALTED or FAULTED at the start, it takes no step (40_dispatch.md R46) and R80 does not say what it reports: that it reports the state it finds is the model's DESIGN CHOICE (log 18). -/
def Obligations.RunReportsItsEnd : Prop :=
  ∀ (n : Nat) (s : State), s.WF → s.runState ≠ .reserved →
    ((s.run n).1 = .halted ∧ (s.run n).2.runState = .halted) ∨
      ((s.run n).2.runState = .faulted ∧
        (s.run n).1 = .faulted (fcodeField (s.run n).2.status) (fipField (s.run n).2.status)) ∨
      ((s.run n).1 = .budgetSpent ∧ (s.run n).2.runState = .running)

/-- 43_control.md R55 and 70_reset_and_hazards.md R86: a JMP whose target is its own address is a legal infinite loop: no budget ends it, and
ip, sp, x, stk, imem and status, which are all of the core's state (10_state.md R10), and the output stay as they are. -/
def Obligations.SelfJumpNeverEnds : Prop :=
  ∀ s : State, s.WF → s.runState = .running → fetch s = .ok (.jmp s.ip) →
    ∀ n, (s.run n).1 = .budgetSpent ∧ (s.run n).2.ip = s.ip ∧ (s.run n).2.sp = s.sp ∧ (s.run n).2.x = s.x ∧
      (s.run n).2.stk = s.stk ∧ (s.run n).2.imem = s.imem ∧ (s.run n).2.out = s.out ∧ (s.run n).2.status = s.status

/-- 40_dispatch.md R41, R43 and 70_reset_and_hazards.md R82 (the spec's decisions D5, D8): execution that reaches a zero tail runs through it as NOPs and
faults with FetchOutOfBounds (code 2) at IMEM_CAP − 1, with the stack, the registers and the output as they were. -/
def Obligations.ZeroTailEndsInFetchFault : Prop :=
  ∀ s : State, s.WF → s.runState = .running →
    (∀ a, s.ip.toNat ≤ a → a < s.cfg.imemCap → Memory.read s.imem a = 0) →
    ∀ n, s.cfg.imemCap - s.ip.toNat ≤ n →
      (s.run n).1 = .faulted 2 (BitVec.ofNat 16 (s.cfg.imemCap - 1)) ∧ (s.run n).2.sp = s.sp ∧ (s.run n).2.x = s.x ∧
        (s.run n).2.stk = s.stk ∧ (s.run n).2.out = s.out

/-- 10_state.md R13: a push writes stk[sp] and then raises sp; a pop lowers sp and then reads stk[sp]; the live slots are those below sp; and
sp stays between 0 and STACK_CAP. That a pop clears no slot is 10_state.md R15 and 41_stack.md R48, the spec's decision D15 (log 17). -/
def Obligations.StackGrowsUpwardFromSlotZero : Prop :=
  (∀ (s t : State) (v : Word), push v s = .ok t → t.sp = s.sp + 1 ∧ t.stk[s.sp]? = some v ∧ (∀ j, j ≠ s.sp → t.stk[j]? = s.stk[j]?) ∧
      t = { s with stk := t.stk, sp := t.sp }) ∧
    (∀ (s t : State) (v : Word), pop s = .ok (v, t) → t.sp + 1 = s.sp ∧ s.stk[t.sp]? = some v ∧ t = { s with sp := t.sp }) ∧
    (∀ (s : State), s.WF → s.live.length = s.sp ∧ ∀ i, i < s.sp → s.live[i]? = some (s.slot i)) ∧
    ∀ s t : State, s.WF → step s = .next t → t.sp ≤ t.cfg.stackCap

/-! ## Memory as data, and the rendering of outputs -/

/-- The canonical form is canonical: two well-formed stores that read alike at every address are the same data (log 5). -/
def Obligations.StoresReadingAlikeAreEqual : Prop :=
  ∀ m n : Memory, Memory.wf m = true → Memory.wf n = true → (∀ a, Memory.read m a = Memory.read n a) → m = n

/-- 45_output.md R66: the text of an output is `-` exactly for a negative value, then the decimal digits of its size, most significant first, with no leading zero but for 0 itself. -/
def Obligations.DecimalTextOfOutput : Prop :=
  ∀ v : Word, ∃ digits : List Nat,
    decimal v = (if v.toInt < 0 then ['-'] else []) ++ digits.map digitChar ∧
      (∀ d ∈ digits, d < 10) ∧ digits.foldl (fun n d => 10 * n + d) 0 = v.toInt.natAbs ∧
      (digits.head? = some 0 → digits = [0]) ∧ digits ≠ []
end

