-- ==== Sys2Proof/Laws/Decode.lean ====
section
/-! SUPPORT. The small laws of the decoder's tables and operand assembly (spec 30_encoding.md R30 to R33). -/

namespace Sys2Proof

/-- A byte with an opcode is that opcode's byte. -/
theorem Opcode.byte_of_ofByte {b : Byte} {o : Opcode} (h : Opcode.ofByte b = some o) : b = o.byte := by
  unfold Opcode.ofByte at h
  apply BitVec.eq_of_toNat_eq
  split at h <;> simp_all [Opcode.byte] <;> subst h <;> simp

/-- Decoding succeeds exactly when the first byte has an opcode and its operand bytes are there. -/
theorem decode_cons_eq_ok {b : Byte} {bs rest : List Byte} {i : Instr} :
    decode (b :: bs) = .ok (i, rest) ↔ ∃ o, Opcode.ofByte b = some o ∧ operands o bs = some (i, rest) := by
  simp only [decode]
  cases h : Opcode.ofByte b with
  | none => simp
  | some o => cases h' : operands o bs <;> simp [h']

/-- The immediate's value from its bytes, the first least significant. -/
theorem imm32_toNat (b0 b1 b2 b3 : Byte) :
    (imm32 b0 b1 b2 b3).toNat = b0.toNat + 2 ^ 8 * b1.toNat + 2 ^ 16 * b2.toNat + 2 ^ 24 * b3.toNat := by
  have h0 := b0.isLt
  have h1 := b1.isLt
  have h2 := b2.isLt
  unfold imm32
  simp only [BitVec.toNat_append]
  rw [← Nat.shiftLeft_add_eq_or_of_lt (by omega), ← Nat.shiftLeft_add_eq_or_of_lt (by omega),
    ← Nat.shiftLeft_add_eq_or_of_lt (by omega)]
  simp only [Nat.shiftLeft_eq]
  omega

/-- A target's value from its bytes, the first least significant. -/
theorem target16_toNat (lo hi : Byte) : (target16 lo hi).toNat = lo.toNat + 2 ^ 8 * hi.toNat := by
  have h := lo.isLt
  unfold target16
  simp only [BitVec.toNat_append]
  rw [← Nat.shiftLeft_add_eq_or_of_lt (by omega), Nat.shiftLeft_eq]
  omega

/-- The immediate put together from its own bytes is itself. -/
theorem imm32_extract (w : Word) :
    imm32 (w.extractLsb' 0 8) (w.extractLsb' 8 8) (w.extractLsb' 16 8) (w.extractLsb' 24 8) = w := by
  have h := w.isLt
  apply BitVec.eq_of_toNat_eq
  rw [imm32_toNat]
  simp only [BitVec.extractLsb'_toNat, Nat.shiftRight_eq_div_pow]
  omega

/-- A target put together from its own bytes is itself. -/
theorem target16_extract (t : Addr) : target16 (t.extractLsb' 0 8) (t.extractLsb' 8 8) = t := by
  have h := t.isLt
  apply BitVec.eq_of_toNat_eq
  rw [target16_toNat]
  simp only [BitVec.extractLsb'_toNat, Nat.shiftRight_eq_div_pow]
  omega

end Sys2Proof
end

