-- ==== Sys2Proof/Laws/State.lean ====
section
/-! SUPPORT. One lemma per field per update of the state, each true by definition, so that no later proof unfolds a record update. -/

namespace Sys2Proof.Machine

@[simp] theorem State.raised_cfg (k : FaultKind) (s : State) : (s.raised k).cfg = s.cfg := rfl
@[simp] theorem State.raised_ip (k : FaultKind) (s : State) : (s.raised k).ip = s.ip := rfl
@[simp] theorem State.raised_sp (k : FaultKind) (s : State) : (s.raised k).sp = s.sp := rfl
@[simp] theorem State.raised_x (k : FaultKind) (s : State) : (s.raised k).x = s.x := rfl
@[simp] theorem State.raised_stk (k : FaultKind) (s : State) : (s.raised k).stk = s.stk := rfl
@[simp] theorem State.raised_imem (k : FaultKind) (s : State) : (s.raised k).imem = s.imem := rfl
@[simp] theorem State.raised_status (k : FaultKind) (s : State) : (s.raised k).status = faultStatus s.ip k := rfl
@[simp] theorem State.raised_phase (k : FaultKind) (s : State) : (s.raised k).phase = s.phase := rfl
@[simp] theorem State.raised_out (k : FaultKind) (s : State) : (s.raised k).out = s.out := rfl
@[simp] theorem State.raised_trace (k : FaultKind) (s : State) : (s.raised k).trace = s.trace := rfl

@[simp] theorem State.halt_cfg (s : State) : s.halt.cfg = s.cfg := rfl
@[simp] theorem State.halt_ip (s : State) : s.halt.ip = s.ip := rfl
@[simp] theorem State.halt_sp (s : State) : s.halt.sp = s.sp := rfl
@[simp] theorem State.halt_x (s : State) : s.halt.x = s.x := rfl
@[simp] theorem State.halt_stk (s : State) : s.halt.stk = s.stk := rfl
@[simp] theorem State.halt_imem (s : State) : s.halt.imem = s.imem := rfl
@[simp] theorem State.halt_status (s : State) : s.halt.status = haltStatus s.status := rfl
@[simp] theorem State.halt_phase (s : State) : s.halt.phase = s.phase := rfl
@[simp] theorem State.halt_out (s : State) : s.halt.out = s.out := rfl
@[simp] theorem State.halt_trace (s : State) : s.halt.trace = s.trace := rfl

@[simp] theorem State.setIp_cfg (t : Addr) (s : State) : (s.setIp t).cfg = s.cfg := rfl
@[simp] theorem State.setIp_ip (t : Addr) (s : State) : (s.setIp t).ip = t := rfl
@[simp] theorem State.setIp_sp (t : Addr) (s : State) : (s.setIp t).sp = s.sp := rfl
@[simp] theorem State.setIp_x (t : Addr) (s : State) : (s.setIp t).x = s.x := rfl
@[simp] theorem State.setIp_stk (t : Addr) (s : State) : (s.setIp t).stk = s.stk := rfl
@[simp] theorem State.setIp_imem (t : Addr) (s : State) : (s.setIp t).imem = s.imem := rfl
@[simp] theorem State.setIp_status (t : Addr) (s : State) : (s.setIp t).status = s.status := rfl
@[simp] theorem State.setIp_phase (t : Addr) (s : State) : (s.setIp t).phase = s.phase := rfl
@[simp] theorem State.setIp_out (t : Addr) (s : State) : (s.setIp t).out = s.out := rfl
@[simp] theorem State.setIp_trace (t : Addr) (s : State) : (s.setIp t).trace = s.trace := rfl
@[simp] theorem State.setIp_runState (t : Addr) (s : State) : (s.setIp t).runState = s.runState := rfl

@[simp] theorem State.pushed_cfg (v : Word) (s : State) : (s.pushed v).cfg = s.cfg := rfl
@[simp] theorem State.pushed_ip (v : Word) (s : State) : (s.pushed v).ip = s.ip := rfl
@[simp] theorem State.pushed_sp (v : Word) (s : State) : (s.pushed v).sp = s.sp + 1 := rfl
@[simp] theorem State.pushed_x (v : Word) (s : State) : (s.pushed v).x = s.x := rfl
@[simp] theorem State.pushed_stk (v : Word) (s : State) : (s.pushed v).stk = s.stk.set s.sp v := rfl
@[simp] theorem State.pushed_imem (v : Word) (s : State) : (s.pushed v).imem = s.imem := rfl
@[simp] theorem State.pushed_status (v : Word) (s : State) : (s.pushed v).status = s.status := rfl
@[simp] theorem State.pushed_phase (v : Word) (s : State) : (s.pushed v).phase = s.phase := rfl
@[simp] theorem State.pushed_out (v : Word) (s : State) : (s.pushed v).out = s.out := rfl
@[simp] theorem State.pushed_trace (v : Word) (s : State) : (s.pushed v).trace = s.trace := rfl
@[simp] theorem State.pushed_runState (v : Word) (s : State) : (s.pushed v).runState = s.runState := rfl

@[simp] theorem State.dropped_cfg (s : State) : s.dropped.cfg = s.cfg := rfl
@[simp] theorem State.dropped_ip (s : State) : s.dropped.ip = s.ip := rfl
@[simp] theorem State.dropped_sp (s : State) : s.dropped.sp = s.sp - 1 := rfl
@[simp] theorem State.dropped_x (s : State) : s.dropped.x = s.x := rfl
@[simp] theorem State.dropped_stk (s : State) : s.dropped.stk = s.stk := rfl
@[simp] theorem State.dropped_imem (s : State) : s.dropped.imem = s.imem := rfl
@[simp] theorem State.dropped_status (s : State) : s.dropped.status = s.status := rfl
@[simp] theorem State.dropped_phase (s : State) : s.dropped.phase = s.phase := rfl
@[simp] theorem State.dropped_out (s : State) : s.dropped.out = s.out := rfl
@[simp] theorem State.dropped_trace (s : State) : s.dropped.trace = s.trace := rfl
@[simp] theorem State.dropped_runState (s : State) : s.dropped.runState = s.runState := rfl

@[simp] theorem State.setReg_cfg (r : Fin 16) (v : Word) (s : State) : (s.setReg r v).cfg = s.cfg := rfl
@[simp] theorem State.setReg_ip (r : Fin 16) (v : Word) (s : State) : (s.setReg r v).ip = s.ip := rfl
@[simp] theorem State.setReg_sp (r : Fin 16) (v : Word) (s : State) : (s.setReg r v).sp = s.sp := rfl
@[simp] theorem State.setReg_x (r : Fin 16) (v : Word) (s : State) : (s.setReg r v).x = s.x.set r v := rfl
@[simp] theorem State.setReg_stk (r : Fin 16) (v : Word) (s : State) : (s.setReg r v).stk = s.stk := rfl
@[simp] theorem State.setReg_imem (r : Fin 16) (v : Word) (s : State) : (s.setReg r v).imem = s.imem := rfl
@[simp] theorem State.setReg_status (r : Fin 16) (v : Word) (s : State) : (s.setReg r v).status = s.status := rfl
@[simp] theorem State.setReg_phase (r : Fin 16) (v : Word) (s : State) : (s.setReg r v).phase = s.phase := rfl
@[simp] theorem State.setReg_out (r : Fin 16) (v : Word) (s : State) : (s.setReg r v).out = s.out := rfl
@[simp] theorem State.setReg_trace (r : Fin 16) (v : Word) (s : State) : (s.setReg r v).trace = s.trace := rfl
@[simp] theorem State.setReg_runState (r : Fin 16) (v : Word) (s : State) : (s.setReg r v).runState = s.runState := rfl

@[simp] theorem State.emit_cfg (v : Word) (s : State) : (s.emit v).cfg = s.cfg := rfl
@[simp] theorem State.emit_ip (v : Word) (s : State) : (s.emit v).ip = s.ip := rfl
@[simp] theorem State.emit_sp (v : Word) (s : State) : (s.emit v).sp = s.sp := rfl
@[simp] theorem State.emit_x (v : Word) (s : State) : (s.emit v).x = s.x := rfl
@[simp] theorem State.emit_stk (v : Word) (s : State) : (s.emit v).stk = s.stk := rfl
@[simp] theorem State.emit_imem (v : Word) (s : State) : (s.emit v).imem = s.imem := rfl
@[simp] theorem State.emit_status (v : Word) (s : State) : (s.emit v).status = s.status := rfl
@[simp] theorem State.emit_phase (v : Word) (s : State) : (s.emit v).phase = s.phase := rfl
@[simp] theorem State.emit_out (v : Word) (s : State) : (s.emit v).out = s.out ++ [v] := rfl
@[simp] theorem State.emit_trace (v : Word) (s : State) : (s.emit v).trace = s.trace := rfl
@[simp] theorem State.emit_runState (v : Word) (s : State) : (s.emit v).runState = s.runState := rfl

@[simp] theorem State.startStep_cfg (s : State) : s.startStep.cfg = s.cfg := rfl
@[simp] theorem State.startStep_ip (s : State) : s.startStep.ip = s.ip := rfl
@[simp] theorem State.startStep_sp (s : State) : s.startStep.sp = s.sp := rfl
@[simp] theorem State.startStep_x (s : State) : s.startStep.x = s.x := rfl
@[simp] theorem State.startStep_stk (s : State) : s.startStep.stk = s.stk := rfl
@[simp] theorem State.startStep_imem (s : State) : s.startStep.imem = s.imem := rfl
@[simp] theorem State.startStep_status (s : State) : s.startStep.status = s.status := rfl
@[simp] theorem State.startStep_phase (s : State) : s.startStep.phase = .started := rfl
@[simp] theorem State.startStep_out (s : State) : s.startStep.out = s.out := rfl
@[simp] theorem State.startStep_trace (s : State) : s.startStep.trace = if s.cfg.traceOn then s.trace ++ [s.snapshot] else s.trace := rfl
@[simp] theorem State.startStep_runState (s : State) : s.startStep.runState = s.runState := rfl

@[simp] theorem State.placeAtIp_cfg (bs : List Byte) (s : State) : (s.placeAtIp bs).cfg = s.cfg := rfl
@[simp] theorem State.placeAtIp_ip (bs : List Byte) (s : State) : (s.placeAtIp bs).ip = s.ip := rfl
@[simp] theorem State.placeAtIp_sp (bs : List Byte) (s : State) : (s.placeAtIp bs).sp = s.sp := rfl
@[simp] theorem State.placeAtIp_x (bs : List Byte) (s : State) : (s.placeAtIp bs).x = s.x := rfl
@[simp] theorem State.placeAtIp_stk (bs : List Byte) (s : State) : (s.placeAtIp bs).stk = s.stk := rfl
@[simp] theorem State.placeAtIp_imem (bs : List Byte) (s : State) : (s.placeAtIp bs).imem = Memory.writeBytes s.imem s.ip.toNat (bs.take (s.cfg.imemCap - s.ip.toNat)) := rfl
@[simp] theorem State.placeAtIp_status (bs : List Byte) (s : State) : (s.placeAtIp bs).status = s.status := rfl
@[simp] theorem State.placeAtIp_phase (bs : List Byte) (s : State) : (s.placeAtIp bs).phase = s.phase := rfl
@[simp] theorem State.placeAtIp_out (bs : List Byte) (s : State) : (s.placeAtIp bs).out = s.out := rfl
@[simp] theorem State.placeAtIp_trace (bs : List Byte) (s : State) : (s.placeAtIp bs).trace = s.trace := rfl
@[simp] theorem State.placeAtIp_runState (bs : List Byte) (s : State) : (s.placeAtIp bs).runState = s.runState := rfl

/-- Two states with equal fields are equal. -/
theorem State.ext_fields {s t : State} (h1 : s.cfg = t.cfg) (h2 : s.ip = t.ip) (h3 : s.sp = t.sp) (h4 : s.x = t.x)
    (h5 : s.stk = t.stk) (h6 : s.imem = t.imem) (h7 : s.status = t.status) (h8 : s.phase = t.phase)
    (h9 : s.out = t.out) (h10 : s.trace = t.trace) : s = t := by
  cases s; cases t; simp_all

end Sys2Proof.Machine
end

