-- ==== Sys2Proof/Laws/Ops.lean ====
section
/-! SUPPORT. One lemma for each shared operation: everything it can do. Proofs about meanings cite these instead of unfolding the operations. -/

namespace Sys2Proof.Machine

/-! ### Pseudocode that ends early -/

@[simp] theorem bind_ok_eq {α β : Type} (a : α) (f : α → Except Abort β) : (Except.ok a >>= f) = f a := rfl

@[simp] theorem bind_error_eq {α β : Type} (e : Abort) (f : α → Except Abort β) : (Except.error e >>= f) = Except.error e := rfl

/-- A computation in two parts succeeds exactly when both do. -/
theorem bind_eq_ok {α β : Type} {x : Except Abort α} {f : α → Except Abort β} {b : β} :
    (x >>= f) = .ok b ↔ ∃ a, x = .ok a ∧ f a = .ok b := by
  cases x <;> simp

/-- A computation in two parts ends early exactly when the first does, or the first succeeds and the second ends early. -/
theorem bind_eq_error {α β : Type} {x : Except Abort α} {f : α → Except Abort β} {e : Abort} :
    (x >>= f) = .error e ↔ x = .error e ∨ ∃ a, x = .ok a ∧ f a = .error e := by
  cases x <;> simp

@[simp] theorem commit_ok (s t : State) : s.commit (.ok t) = .next t := rfl

@[simp] theorem commit_raise (s : State) (k : FaultKind) : s.commit (.error (.raise k)) = .next (s.raised k) := rfl

@[simp] theorem commit_absent (s : State) (f : Fault) : s.commit (.error (.absent f)) = .fault f := rfl

/-- What commit can answer: the staged state, or the fault entry on the state before the instruction. -/
theorem commit_eq_next {s t : State} {r : Except Abort State} :
    s.commit r = .next t ↔ r = .ok t ∨ ∃ k, r = .error (.raise k) ∧ t = s.raised k := by
  rcases r with (k | f) | u
  · simp [eq_comm]
  · simp
  · simp

/-! ### The primitives -/

theorem push_eq_ok {v : Word} {s t : State} :
    push v s = .ok t ↔ s.sp + 2 < s.cfg.stackCap ∧ s.sp < s.stk.length ∧ t = s.pushed v := by
  unfold push
  by_cases h1 : s.cfg.stackCap ≤ s.sp + 2
  · simp [h1, show ¬s.sp + 2 < s.cfg.stackCap by omega]
  · by_cases h2 : s.sp < s.stk.length <;> simp [h1, h2, show s.sp + 2 < s.cfg.stackCap by omega, eq_comm]

theorem push_eq_raise {v : Word} {s : State} {k : FaultKind} :
    push v s = .error (.raise k) ↔ k = .stackOverflow ∧ s.cfg.stackCap ≤ s.sp + 2 := by
  unfold push
  by_cases h1 : s.cfg.stackCap ≤ s.sp + 2
  · simp [h1, eq_comm]
  · by_cases h2 : s.sp < s.stk.length <;> simp [h1, h2]

theorem pop_eq_ok {s t : State} {v : Word} :
    pop s = .ok (v, t) ↔ 0 < s.sp ∧ s.stk[s.sp - 1]? = some v ∧ t = s.dropped := by
  unfold pop
  by_cases h : s.sp = 0
  · simp [h]
  · cases hv : s.stk[s.sp - 1]? <;> simp [h, Nat.pos_of_ne_zero h, eq_comm]

theorem pop_eq_raise {s : State} {k : FaultKind} :
    pop s = .error (.raise k) ↔ k = .stackUnderflow ∧ s.sp = 0 := by
  unfold pop
  by_cases h : s.sp = 0
  · simp [h, eq_comm]
  · cases hv : s.stk[s.sp - 1]? <;> simp [h]

theorem advance_eq_ok {w : Nat} {s t : State} :
    advance w s = .ok t ↔ s.ip.toNat + w < s.cfg.imemCap ∧ t = s.setIp (BitVec.ofNat 16 (s.ip.toNat + w)) := by
  unfold advance
  by_cases h : s.cfg.imemCap ≤ s.ip.toNat + w
  · simp [h, show ¬s.ip.toNat + w < s.cfg.imemCap by omega]
  · simp [h, show s.ip.toNat + w < s.cfg.imemCap by omega, eq_comm]

theorem advance_eq_error {w : Nat} {s : State} {e : Abort} :
    advance w s = .error e ↔ e = .raise .fetchOutOfBounds ∧ s.cfg.imemCap ≤ s.ip.toNat + w := by
  unfold advance
  by_cases h : s.cfg.imemCap ≤ s.ip.toNat + w <;> simp [h, eq_comm]

theorem jump_eq_ok {a : Addr} {s t : State} : jump a s = .ok t ↔ a.toNat < s.cfg.imemCap ∧ t = s.setIp a := by
  unfold jump
  by_cases h : s.cfg.imemCap ≤ a.toNat
  · simp [h, show ¬a.toNat < s.cfg.imemCap by omega]
  · simp [h, show a.toNat < s.cfg.imemCap by omega, eq_comm]

theorem jump_eq_error {a : Addr} {s : State} {e : Abort} :
    jump a s = .error e ↔ e = .raise .invalidJumpTarget ∧ s.cfg.imemCap ≤ a.toNat := by
  unfold jump
  by_cases h : s.cfg.imemCap ≤ a.toNat <;> simp [h, eq_comm]

theorem regIndex_eq_ok {r : Byte} {k : Fin 16} : regIndex r = .ok k ↔ r.toNat = k.val := by
  unfold regIndex
  by_cases h : r.toNat < 16
  · simp [h, Fin.ext_iff]
  · simp only [h, dite_false, reduceCtorEq, false_iff]
    omega

theorem regIndex_of_lt {r : Byte} (h : r.toNat < 16) : regIndex r = .ok ⟨r.toNat, h⟩ := regIndex_eq_ok.2 rfl

theorem regIndex_of_ge {r : Byte} (h : 16 ≤ r.toNat) : regIndex r = .error (.raise .invalidRegister) := by
  simp [regIndex, show ¬r.toNat < 16 by omega]

/-! ### The frames -/

/-- What JZ's and JNZ's frame does when it completes. -/
theorem jumpIf_eq_ok {taken : Word → Bool} {a : Addr} {s t : State} :
    jumpIf taken a s = .ok t ↔ ∃ v, 0 < s.sp ∧ s.stk[s.sp - 1]? = some v ∧
      ((taken v = true ∧ a.toNat < s.cfg.imemCap ∧ t = s.dropped.setIp a) ∨
        (taken v = false ∧ s.ip.toNat + 3 < s.cfg.imemCap ∧ t = s.dropped.setIp (BitVec.ofNat 16 (s.ip.toNat + 3)))) := by
  unfold jumpIf
  simp only [bind_eq_ok, Prod.exists, pop_eq_ok]
  constructor
  · rintro ⟨v, u, ⟨hs, hv, rfl⟩, h⟩
    refine ⟨v, hs, hv, ?_⟩
    cases ht : taken v
    · simpa [ht, advance_eq_ok] using h
    · simpa [ht, jump_eq_ok] using h
  · rintro ⟨v, hs, hv, h⟩
    refine ⟨v, _, ⟨hs, hv, rfl⟩, ?_⟩
    cases ht : taken v
    · simpa [ht, advance_eq_ok] using h
    · simpa [ht, jump_eq_ok] using h

/-- What the two-operand frame does when it completes: the result replaces the word below the top. -/
theorem aluFrame_eq_ok {op : Word → Word → Except Abort Word} {s t : State} :
    aluFrame op s = .ok t ↔ ∃ s1 s2 v, 2 ≤ s.sp ∧ s.stk[s.sp - 1]? = some s1 ∧ s.stk[s.sp - 2]? = some s2 ∧
      op s2 s1 = .ok v ∧ s.sp < s.cfg.stackCap ∧ s.ip.toNat + 1 < s.cfg.imemCap ∧
      t = (s.dropped.dropped.pushed v).setIp (BitVec.ofNat 16 (s.ip.toNat + 1)) := by
  unfold aluFrame
  simp only [bind_eq_ok, Prod.exists, pop_eq_ok, push_eq_ok, advance_eq_ok]
  constructor
  · rintro ⟨s1, t1, ⟨h1, h2, rfl⟩, s2, t2, ⟨h3, h4, rfl⟩, v, hv, w, ⟨h5, h6, rfl⟩, h7, rfl⟩
    simp only [State.dropped_sp, State.dropped_stk, State.dropped_cfg, State.pushed_ip, State.pushed_cfg, State.dropped_ip] at *
    exact ⟨s1, s2, v, by omega, h2, by rwa [Nat.sub_sub] at h4, hv, by omega, h7, rfl⟩
  · rintro ⟨s1, s2, v, h1, h2, h3, hv, h4, h5, rfl⟩
    have hlen : s.sp - 2 < s.stk.length := (List.getElem?_eq_some_iff.1 h3).1
    refine ⟨s1, _, ⟨by omega, h2, rfl⟩, s2, _, ⟨?_, ?_, rfl⟩, v, hv, _, ⟨?_, ?_, rfl⟩, ?_, rfl⟩
    · simp only [State.dropped_sp]; omega
    · simpa [Nat.sub_sub] using h3
    · simp only [State.dropped_sp, State.dropped_cfg]; omega
    · simp only [State.dropped_sp, State.dropped_stk]; omega
    · simpa using h5

end Sys2Proof.Machine
end

