-- ==== Sys2Proof/Laws/Exec.lean ====
section
/-! SUPPORT. What an instruction can do, said once: a fault entry on the state before it, or the completion its rule gives (spec 40_dispatch.md R42 to 45_output.md R65). -/

namespace Sys2Proof.Machine

/-- `advance(w)` where it does not fault: the next sequential address. -/
abbrev State.past (w : Nat) (s : State) : State := s.setIp (BitVec.ofNat 16 (s.ip.toNat + w))

/-- How each instruction completes: from `s` to the state after it, with the conditions it completes under. -/
inductive Completes : Instr → State → State → Prop where
  | nop {s} : s.ip.toNat + 1 < s.cfg.imemCap → Completes .nop s (s.past 1)
  | stop {s} : Completes .stop s s.halt
  | push {s imm} : s.sp + 2 < s.cfg.stackCap → s.sp < s.stk.length → s.ip.toNat + 5 < s.cfg.imemCap →
      Completes (.push imm) s ((s.pushed imm).past 5)
  | pop {s v} : 0 < s.sp → s.stk[s.sp - 1]? = some v → s.ip.toNat + 1 < s.cfg.imemCap → Completes .pop s (s.dropped.past 1)
  | load {s r} (k : Fin 16) : r.toNat = k.val → s.sp + 2 < s.cfg.stackCap → s.sp < s.stk.length → s.ip.toNat + 2 < s.cfg.imemCap →
      Completes (.load r) s ((s.pushed (s.reg k)).past 2)
  | store {s r v} (k : Fin 16) : r.toNat = k.val → 0 < s.sp → s.stk[s.sp - 1]? = some v → s.ip.toNat + 2 < s.cfg.imemCap →
      Completes (.store r) s ((s.dropped.setReg k v).past 2)
  | jmp {s t} : t.toNat < s.cfg.imemCap → Completes (.jmp t) s (s.setIp t)
  | jzTaken {s t v} : 0 < s.sp → s.stk[s.sp - 1]? = some v → v = 0 → t.toNat < s.cfg.imemCap →
      Completes (.jz t) s (s.dropped.setIp t)
  | jzPast {s t v} : 0 < s.sp → s.stk[s.sp - 1]? = some v → v ≠ 0 → s.ip.toNat + 3 < s.cfg.imemCap →
      Completes (.jz t) s (s.dropped.past 3)
  | jnzTaken {s t v} : 0 < s.sp → s.stk[s.sp - 1]? = some v → v ≠ 0 → t.toNat < s.cfg.imemCap →
      Completes (.jnz t) s (s.dropped.setIp t)
  | jnzPast {s t v} : 0 < s.sp → s.stk[s.sp - 1]? = some v → v = 0 → s.ip.toNat + 3 < s.cfg.imemCap →
      Completes (.jnz t) s (s.dropped.past 3)
  | alu {s i s1 s2 v} : 2 ≤ s.sp → s.stk[s.sp - 1]? = some s1 → s.stk[s.sp - 2]? = some s2 →
      ((i = .add ∧ v = aluAdd s2 s1) ∨ (i = .sub ∧ v = aluSub s2 s1) ∨ (i = .mul ∧ v = aluMul s2 s1) ∨
        (i = .div ∧ s1 ≠ 0 ∧ v = aluQuot s2 s1)) →
      s.sp < s.cfg.stackCap → s.ip.toNat + 1 < s.cfg.imemCap → Completes i s ((s.dropped.dropped.pushed v).past 1)
  | print {s v} : 0 < s.sp → s.stk[s.sp - 1]? = some v → s.ip.toNat + 1 < s.cfg.imemCap →
      Completes .print s ((s.dropped.emit v).past 1)

/-- What the quotient operation does when it raises nothing. -/
theorem aluDiv_eq_ok {s2 s1 v : Word} : aluDiv s2 s1 = .ok v ↔ s1 ≠ 0 ∧ v = aluQuot s2 s1 := by
  unfold aluDiv
  by_cases h : s1 = 0
  · simp [h]
  · rw [if_neg h]
    exact ⟨fun e => ⟨h, by cases e; rfl⟩, fun e => by rw [e.2]⟩

/-- An instruction that answers a next state took a fault entry or completed. -/
theorem exec_cases {i : Instr} {s t : State} (h : exec i s = .next t) : (∃ k, t = s.raised k) ∨ Completes i s t := by
  cases i
  case stop =>
    cases h
    exact .inr .stop
  all_goals
    rcases commit_eq_next.1 h with h | ⟨k, -, rfl⟩
    rotate_left
    · exact .inl ⟨k, rfl⟩
    right
  case nop =>
    obtain ⟨hip, rfl⟩ := advance_eq_ok.1 h
    exact .nop hip
  case push =>
    obtain ⟨u, hu, h⟩ := bind_eq_ok.1 h
    obtain ⟨hcap, hlen, rfl⟩ := push_eq_ok.1 hu
    obtain ⟨hip, rfl⟩ := advance_eq_ok.1 h
    exact .push hcap hlen hip
  case pop =>
    obtain ⟨⟨v, u⟩, hu, h⟩ := bind_eq_ok.1 h
    obtain ⟨hsp, hv, rfl⟩ := pop_eq_ok.1 hu
    obtain ⟨hip, rfl⟩ := advance_eq_ok.1 h
    exact .pop hsp hv hip
  case load =>
    obtain ⟨k, hk, h⟩ := bind_eq_ok.1 h
    obtain ⟨u, hu, h⟩ := bind_eq_ok.1 h
    obtain ⟨hcap, hlen, rfl⟩ := push_eq_ok.1 hu
    obtain ⟨hip, rfl⟩ := advance_eq_ok.1 h
    exact .load k (regIndex_eq_ok.1 hk) hcap hlen hip
  case store =>
    obtain ⟨k, hk, h⟩ := bind_eq_ok.1 h
    obtain ⟨⟨v, u⟩, hu, h⟩ := bind_eq_ok.1 h
    obtain ⟨hsp, hv, rfl⟩ := pop_eq_ok.1 hu
    obtain ⟨hip, rfl⟩ := advance_eq_ok.1 h
    exact .store k (regIndex_eq_ok.1 hk) hsp hv hip
  case jmp =>
    obtain ⟨ht, rfl⟩ := jump_eq_ok.1 h
    exact .jmp ht
  case jz =>
    obtain ⟨v, hsp, hv, ⟨h0, ht, rfl⟩ | ⟨h0, hip, rfl⟩⟩ := jumpIf_eq_ok.1 h
    · exact .jzTaken hsp hv (by simpa using h0) ht
    · exact .jzPast hsp hv (by simpa using h0) hip
  case jnz =>
    obtain ⟨v, hsp, hv, ⟨h0, ht, rfl⟩ | ⟨h0, hip, rfl⟩⟩ := jumpIf_eq_ok.1 h
    · exact .jnzTaken hsp hv (by simpa using h0) ht
    · exact .jnzPast hsp hv (by simpa using h0) hip
  case add =>
    obtain ⟨s1, s2, v, hsp, h1, h2, hv, hcap, hip, rfl⟩ := aluFrame_eq_ok.1 h
    cases hv
    exact .alu hsp h1 h2 (.inl ⟨rfl, rfl⟩) hcap hip
  case sub =>
    obtain ⟨s1, s2, v, hsp, h1, h2, hv, hcap, hip, rfl⟩ := aluFrame_eq_ok.1 h
    cases hv
    exact .alu hsp h1 h2 (.inr (.inl ⟨rfl, rfl⟩)) hcap hip
  case mul =>
    obtain ⟨s1, s2, v, hsp, h1, h2, hv, hcap, hip, rfl⟩ := aluFrame_eq_ok.1 h
    cases hv
    exact .alu hsp h1 h2 (.inr (.inr (.inl ⟨rfl, rfl⟩))) hcap hip
  case div =>
    obtain ⟨s1, s2, v, hsp, h1, h2, hv, hcap, hip, rfl⟩ := aluFrame_eq_ok.1 h
    exact .alu hsp h1 h2 (.inr (.inr (.inr ⟨rfl, aluDiv_eq_ok.1 hv⟩))) hcap hip
  case print =>
    obtain ⟨⟨v, u⟩, hu, h⟩ := bind_eq_ok.1 h
    obtain ⟨hsp, hv, rfl⟩ := pop_eq_ok.1 hu
    obtain ⟨hip, rfl⟩ := advance_eq_ok.1 h
    exact .print hsp hv hip

/-- No instruction is refused. -/
theorem exec_ne_refused (i : Instr) (s : State) (r : Refusal) : exec i s ≠ .refused r := by
  have commit_ne : ∀ x : Except Abort State, s.commit x ≠ .refused r := by
    rintro ((k | f) | t) h <;> simp at h
  cases i
  case stop => exact commit_ne (.ok s.halt)
  all_goals exact commit_ne _

end Sys2Proof.Machine
end

