-- ==== Sys2Proof/Laws/Memory.lean ====
section
/-! SUPPORT. The Instruction Store's laws: a write is read back and leaves every other address alone, and every operation keeps the canonical form. -/

namespace Sys2Proof.Machine

@[simp] theorem Memory.read_nil (a : Nat) : Memory.read [] a = Memory.unlisted := rfl

theorem Memory.wf_cons {a : Nat} {v : Byte} {m : Memory} :
    Memory.wf ((a, v) :: m) = true ↔ v ≠ Memory.unlisted ∧ (∀ c ∈ m, a < c.1) ∧ Memory.wf m = true := by
  simp [Memory.wf, and_assoc]

/-- An address below every listed one reads as unlisted. -/
theorem Memory.read_of_lt {m : Memory} {a : Nat} (h : ∀ c ∈ m, a < c.1) : Memory.read m a = Memory.unlisted := by
  induction m with
  | nil => rfl
  | cons c m ih =>
    obtain ⟨b, v⟩ := c
    have hb : a < b := h (b, v) (by simp)
    simp [Memory.read, Nat.ne_of_lt hb, ih fun c hc => h c (by simp [hc])]

theorem Memory.read_cons_cell {m : Memory} {a : Nat} {v : Byte} (h : ∀ c ∈ m, a < c.1) (b : Nat) :
    Memory.read (Memory.cons a v m) b = if b = a then v else Memory.read m b := by
  by_cases hv : v = Memory.unlisted
  · by_cases hb : b = a
    · subst hb; simp [Memory.cons, hv, Memory.read_of_lt h]
    · simp [Memory.cons, hv, hb]
  · simp [Memory.cons, hv, Memory.read]

theorem Memory.mem_cons_cell {m : Memory} {a : Nat} {v : Byte} {c : Host.Cell} (h : c ∈ Memory.cons a v m) :
    c.1 = a ∨ c ∈ m := by
  unfold Memory.cons at h
  split at h
  · exact .inr h
  · rcases List.mem_cons.1 h with rfl | h
    · exact .inl rfl
    · exact .inr h

theorem Memory.wf_cons_cell {m : Memory} {a : Nat} {v : Byte} (h : ∀ c ∈ m, a < c.1) (hm : Memory.wf m = true) :
    Memory.wf (Memory.cons a v m) = true := by
  unfold Memory.cons
  split
  · exact hm
  · exact Memory.wf_cons.2 ⟨‹_›, h, hm⟩

/-- A write lists no address but its own and the ones listed before. -/
theorem Memory.mem_write {m : Memory} {a : Nat} {v : Byte} {c : Host.Cell} (h : c ∈ Memory.write m a v) :
    c.1 = a ∨ c ∈ m := by
  induction m with
  | nil => exact Memory.mem_cons_cell h
  | cons d m ih =>
    obtain ⟨b, w⟩ := d
    simp only [Memory.write] at h
    split at h
    · exact Memory.mem_cons_cell h
    · split at h
      · exact (Memory.mem_cons_cell h).imp_right fun h => by simp [h]
      · rcases List.mem_cons.1 h with rfl | h
        · exact .inr (by simp)
        · exact (ih h).imp_right fun h => by simp [h]

/-- A write keeps the canonical form. -/
theorem Memory.write_wf {m : Memory} (hm : Memory.wf m = true) (a : Nat) (v : Byte) :
    Memory.wf (Memory.write m a v) = true := by
  induction m with
  | nil => exact Memory.wf_cons_cell (by simp) rfl
  | cons d m ih =>
    obtain ⟨b, w⟩ := d
    obtain ⟨hw, hb, hm'⟩ := Memory.wf_cons.1 hm
    simp only [Memory.write]
    split
    · rename_i hab
      refine Memory.wf_cons_cell (fun c hc => ?_) hm
      rcases List.mem_cons.1 hc with rfl | hc
      · exact hab
      · exact Nat.lt_trans hab (hb c hc)
    · split
      · rename_i h; subst h
        exact Memory.wf_cons_cell hb hm'
      · refine Memory.wf_cons.2 ⟨hw, fun c hc => ?_, ih hm'⟩
        rcases Memory.mem_write hc with h | h
        · omega
        · exact hb c h

/-- A write is read back, and every other address reads as before. -/
theorem Memory.read_write {m : Memory} (hm : Memory.wf m = true) (a : Nat) (v : Byte) (b : Nat) :
    Memory.read (Memory.write m a v) b = if b = a then v else Memory.read m b := by
  induction m with
  | nil => exact Memory.read_cons_cell (m := []) (by simp) b
  | cons d m ih =>
    obtain ⟨c, w⟩ := d
    obtain ⟨-, hc, hm'⟩ := Memory.wf_cons.1 hm
    simp only [Memory.write]
    split
    · rename_i hac
      refine Memory.read_cons_cell (fun e he => ?_) b
      rcases List.mem_cons.1 he with rfl | he
      · exact hac
      · exact Nat.lt_trans hac (hc e he)
    · split
      · rename_i h; subst h
        rw [Memory.read_cons_cell hc b]
        by_cases hb : b = a <;> simp [Memory.read, hb]
      · rename_i h1 h2
        by_cases hb : b = c
        · subst hb; simp [Memory.read, Ne.symm h2]
        · simp [Memory.read, hb, ih hm']

theorem Memory.writeBytes_wf {m : Memory} (hm : Memory.wf m = true) (a : Nat) (bs : List Byte) :
    Memory.wf (Memory.writeBytes m a bs) = true := by
  induction bs generalizing m a with
  | nil => exact hm
  | cons b bs ih => exact ih (Memory.write_wf hm a b) (a + 1)

theorem Memory.mem_writeBytes {m : Memory} {a : Nat} {bs : List Byte} {c : Host.Cell} (h : c ∈ Memory.writeBytes m a bs) :
    (a ≤ c.1 ∧ c.1 < a + bs.length) ∨ c ∈ m := by
  induction bs generalizing m a with
  | nil => exact .inr h
  | cons b bs ih =>
    simp only [List.length_cons]
    rcases ih h with h | h
    · left; omega
    · exact (Memory.mem_write h).imp_left fun h => by omega

/-- What writing bytes leaves at each address: the byte written there, or what was there before. -/
theorem Memory.read_writeBytes {m : Memory} (hm : Memory.wf m = true) (a : Nat) (bs : List Byte) (b : Nat) :
    Memory.read (Memory.writeBytes m a bs) b =
      if a ≤ b then (bs[b - a]?).getD (Memory.read m b) else Memory.read m b := by
  induction bs generalizing m a with
  | nil => simp [Memory.writeBytes]
  | cons v bs ih =>
    rw [Memory.writeBytes, ih (Memory.write_wf hm a v), Memory.read_write hm]
    rcases Nat.lt_trichotomy b a with h | h | h
    · simp [show ¬a ≤ b by omega, show ¬a + 1 ≤ b by omega, show b ≠ a by omega]
    · subst h; simp
    · obtain ⟨k, rfl⟩ : ∃ k, b = a + 1 + k := ⟨b - (a + 1), by omega⟩
      simp [show a ≤ a + 1 + k by omega, show a + 1 + k - a = k + 1 by omega, show a + 1 + k ≠ a by omega]

theorem Memory.ofBytes_wf (bs : List Byte) : Memory.wf (Memory.ofBytes bs) = true :=
  Memory.writeBytes_wf rfl 0 bs

theorem Memory.mem_ofBytes {bs : List Byte} {c : Host.Cell} (h : c ∈ Memory.ofBytes bs) : c.1 < bs.length := by
  simpa using Memory.mem_writeBytes h

@[simp] theorem Memory.length_bytes (m : Memory) (a n : Nat) : (Memory.bytes m a n).length = n := by
  induction n generalizing a with
  | zero => rfl
  | succ n ih => simp [Memory.bytes, ih]

theorem Memory.getElem?_bytes (m : Memory) (a n k : Nat) (h : k < n) :
    (Memory.bytes m a n)[k]? = some (Memory.read m (a + k)) := by
  induction n generalizing a k with
  | zero => omega
  | succ n ih =>
    cases k with
    | zero => rfl
    | succ k => simpa [Memory.bytes, Nat.add_assoc, Nat.add_comm 1 k] using ih (a + 1) k (by omega)

theorem Memory.bytes_take (m : Memory) (a n k : Nat) : (Memory.bytes m a n).take k = Memory.bytes m a (min k n) := by
  induction n generalizing a k with
  | zero => simp [Memory.bytes]
  | succ n ih =>
    cases k with
    | zero => simp [Memory.bytes]
    | succ k => simp [Memory.bytes, ih, Nat.add_min_add_right]

end Sys2Proof.Machine
end

