-- ==== Sys2Proof/Laws/PerInstr.lean ====
section
/-! SUPPORT. The per-instruction family `EncodeLength`: how many bytes each instruction's encoding has (spec 30_encoding.md R29). -/

namespace Sys2Proof.Laws.EncodeLength

/-- The encoding has as many bytes as the opcode's width says, at least one and at most five (30_encoding.md R29, R30). -/
def Statement (i : Instr) : Prop :=
  (encode i).length = i.width ∧ 1 ≤ i.width ∧ i.width ≤ maxWidth

theorem nop : Statement .nop := ⟨rfl, by simp [Instr.width, Instr.opcode, Opcode.width, maxWidth]⟩
theorem push (imm : Word) : Statement (.push imm) := ⟨rfl, by simp [Instr.width, Instr.opcode, Opcode.width, maxWidth]⟩
theorem pop : Statement .pop := ⟨rfl, by simp [Instr.width, Instr.opcode, Opcode.width, maxWidth]⟩
theorem load (r : Byte) : Statement (.load r) := ⟨rfl, by simp [Instr.width, Instr.opcode, Opcode.width, maxWidth]⟩
theorem store (r : Byte) : Statement (.store r) := ⟨rfl, by simp [Instr.width, Instr.opcode, Opcode.width, maxWidth]⟩
theorem jmp (t : Addr) : Statement (.jmp t) := ⟨rfl, by simp [Instr.width, Instr.opcode, Opcode.width, maxWidth]⟩
theorem jz (t : Addr) : Statement (.jz t) := ⟨rfl, by simp [Instr.width, Instr.opcode, Opcode.width, maxWidth]⟩
theorem jnz (t : Addr) : Statement (.jnz t) := ⟨rfl, by simp [Instr.width, Instr.opcode, Opcode.width, maxWidth]⟩
theorem add : Statement .add := ⟨rfl, by simp [Instr.width, Instr.opcode, Opcode.width, maxWidth]⟩
theorem sub : Statement .sub := ⟨rfl, by simp [Instr.width, Instr.opcode, Opcode.width, maxWidth]⟩
theorem mul : Statement .mul := ⟨rfl, by simp [Instr.width, Instr.opcode, Opcode.width, maxWidth]⟩
theorem div : Statement .div := ⟨rfl, by simp [Instr.width, Instr.opcode, Opcode.width, maxWidth]⟩
theorem print : Statement .print := ⟨rfl, by simp [Instr.width, Instr.opcode, Opcode.width, maxWidth]⟩
theorem stop : Statement .stop := ⟨rfl, by simp [Instr.width, Instr.opcode, Opcode.width, maxWidth]⟩

end Sys2Proof.Laws.EncodeLength
end

