-- ==== Sys2Proof/Laws/Step.lean ====
section
/-! SUPPORT. What a step and a run can do, said once (spec 40_dispatch.md R38 to R46; 70_reset_and_hazards.md R80). -/

namespace Sys2Proof.Machine

/-- A step that answers a next state ran an instruction of a running core, or took a fault of its fetch. -/
theorem step_eq_next {s t : State} :
    step s = .next t ↔ s.runState = .running ∧
      ((∃ i, fetch s = .ok i ∧ exec i s.startStep = .next t) ∨
        ∃ k, fetch s = .error (.raise k) ∧ t = s.startStep.raised k) := by
  unfold step
  cases hr : s.runState <;> simp only [reduceCtorEq, false_and, true_and]
  cases hf : fetch s with
  | ok i => simp
  | error e => cases e <;> simp [State.aborted, eq_comm]

/-- A step of a running core whose fetch gives an instruction is that instruction's `exec`. -/
theorem step_of_fetch {s : State} {i : Instr} (h : s.runState = .running) (hf : fetch s = .ok i) :
    step s = exec i s.startStep := by
  simp [step, h, hf]

/-- A step of a core that is not running is refused. -/
theorem step_refused {s : State} (h : s.runState ≠ .running) : ∃ r, step s = .refused r := by
  unfold step
  cases hr : s.runState
  · exact absurd hr h
  all_goals exact ⟨_, rfl⟩

/-- The status word of a fault: STATE is FAULTED. -/
@[simp] theorem runStateOf_faultStatus (a : Addr) (k : FaultKind) : runStateOf (faultStatus a k) = .faulted := by
  have h : stateField (faultStatus a k) = 2 := by
    unfold stateField faultStatus
    ext i hi
    have : i = 0 ∨ i = 1 := by omega
    rcases this with rfl | rfl <;> simp
  simp [runStateOf, h]

@[simp] theorem State.raised_runState (k : FaultKind) (s : State) : (s.raised k).runState = .faulted :=
  runStateOf_faultStatus s.ip k

/-- `halt` writes the STATE field: HALTED. -/
theorem stateField_haltStatus (st : BitVec 32) : stateField (haltStatus st) = 1 := by
  unfold stateField haltStatus
  ext i hi
  have : i = 0 ∨ i = 1 := by omega
  rcases this with rfl | rfl <;> simp

@[simp] theorem State.halt_runState (s : State) : s.halt.runState = .halted := by
  have h : stateField s.halt.status = 1 := stateField_haltStatus s.status
  simp only [State.runState, runStateOf, h]
  rfl

/-- A run of a core that is not running takes no step and reports STATE. -/
theorem run_of_not_running {s : State} (h : s.runState ≠ .running) (n : Nat) : s.run n = (s.runEnd, s) := by
  cases n with
  | zero => rfl
  | succ n =>
    obtain ⟨r, hr⟩ := step_refused h
    simp [State.run, hr]

/-- A run with a budget takes one step and runs on with the rest of it. -/
theorem run_succ_of_next {s t : State} (h : step s = .next t) (n : Nat) : s.run (n + 1) = t.run n := by
  simp [State.run, h]

end Sys2Proof.Machine
end

