-- ==== Sys2Proof/Tests/Slice0.lean ====
section
/-! SUPPORT. Tests whose expected results come from spec/95_test_vectors.md and spec/30_encoding.md, and a witness for the hypotheses of each statement.

`core a bytes stk` is the reference configuration with `bytes` at address `a`, ip = a and the live stack `stk`, bottom first (95_test_vectors.md, Conventions). -/

namespace Sys2Proof.Machine.Slice0

/-- A small state: the conventions of 95_test_vectors.md. -/
def core (a : Addr) (bytes : List Byte) (stk : List Word) : State :=
  { State.reset with
    ip := a
    sp := stk.length
    stk := stk ++ List.replicate (16 - stk.length) 0
    imem := Memory.writeBytes [] a.toNat bytes }

/-- The state of an outcome, if it is a next state. -/
def stateOf : Result → Option State
  | .next t => some t
  | .fault _ => none
  | .refused _ => none

/-- What a test row compares: the next ip, the live stack and the status word. -/
def shows (o : Result) : Option (Addr × List Word × BitVec 32) := (stateOf o).map fun t => (t.ip, t.live, t.status)

/-- An outcome that is a refusal, and which. -/
def refusalOf : Result → Option Refusal
  | .next _ => none
  | .fault _ => none
  | .refused r => some r

/-! ### Well-formedness refuses an ill-formed term for each check -/

theorem test_wellFormed_load16 : Instr.wellFormed (.load 16) = false := by decide
theorem test_wellFormed_store255 : Instr.wellFormed (.store 255) = false := by decide
theorem test_wellFormed_load15 : Instr.wellFormed (.load 15) = true := by decide
theorem test_target_jmp64 : Instr.wellFormedIn Config.reference (.jmp 64) = false := by decide
theorem test_target_jz65535 : Instr.wellFormedIn Config.reference (.jz 65535) = false := by decide
theorem test_target_jnz64 : Instr.wellFormedIn Config.reference (.jnz 64) = false := by decide
theorem test_target_jmp63 : Instr.wellFormedIn Config.reference (.jmp 63) = true := by decide
theorem test_config_refuses : ¬Config.Valid { Config.reference with stackCap := 2 } ∧ ¬Config.Valid { Config.reference with imemCap := 0 } ∧
    ¬Config.Valid { Config.reference with imemCap := 65537 } := by decide

/-! ### Every constructor's decoding, from bytes written out from 30_encoding.md R29, R30 -/

theorem test_decode_nop : decodeTableWord 8 0b00000000 = some .nop := by decide
theorem test_decode_push : decode [0b00000001, 0x78, 0x56, 0x34, 0x12] = .ok (.push 0x12345678, []) := rfl
theorem test_decode_pop : decodeTableWord 8 0b00000010 = some .pop := by decide
theorem test_decode_load : decode [0b00000011, 0b00001111] = .ok (.load 15, []) := rfl
theorem test_decode_store : decode [0b00000100, 0b00010100] = .ok (.store 20, []) := rfl
theorem test_decode_jmp : decode [0b00000101, 0x10, 0x00] = .ok (.jmp 16, []) := rfl
theorem test_decode_jz : decode [0b00000110, 0x63, 0x00] = .ok (.jz 99, []) := rfl
theorem test_decode_jnz : decode [0b00000111, 0x07, 0x01] = .ok (.jnz 263, []) := rfl
theorem test_decode_add : decodeTableWord 8 0b00001000 = some .add := by decide
theorem test_decode_sub : decodeTableWord 8 0b00001001 = some .sub := by decide
theorem test_decode_mul : decodeTableWord 8 0b00001010 = some .mul := by decide
theorem test_decode_div : decodeTableWord 8 0b00001011 = some .div := by decide
theorem test_decode_print : decodeTableWord 8 0b00001100 = some .print := by decide
theorem test_decode_stop : decodeTableWord 8 0b00001101 = some .stop := by decide
/-- 30_encoding.md R31: the bytes `FF FF FF FF` give −1. -/
theorem test_decode_table_push : decodeTableWord 40 0xFFFFFFFF01 = some (.push (-1)) := by decide
/-- Bits above nbits are 0. -/
theorem test_decode_table_short : decodeTableWord 8 0xFFFFFFFF01 = some (.push 0) := by decide
/-- V-D8: byte 16 is no bitwise operation. -/
theorem test_decode_illegal : decode [0x10] = .error (.illegalOpcode 0x10) := rfl
theorem test_decode_truncated : decode [0x01, 0, 0, 0] = .error (.truncated .push) := rfl
/-- 30_encoding.md R36: an unknown mnemonic has no opcode, nor has an upper-case one. -/
theorem test_mnemonic_unknown : Opcode.ofMnemonic "xor" = none ∧ Opcode.ofMnemonic "PUSH" = none ∧ Opcode.ofMnemonic "push" = some .push := by decide
/-- 30_encoding.md R37: hex gives the 32-bit pattern; a register is decimal, 0..15. -/
theorem test_assemble : assemble "push" (some (.hex 0x80000000)) = some (.push intMin) ∧ assemble "load" (some (.dec 16)) = none ∧
    assemble "nop" (some (.dec 0)) = none ∧ assemble "push" (some (.dec 2147483648)) = none := by decide

/-! ### One step, from the vectors of 95_test_vectors.md -/

/-- V-D2, V-D3. -/
theorem test_nop : shows (step (core 62 [0x00] [])) = some (63, [], 0) ∧ shows (step (core 63 [0x00] [])) = some (63, [], 0x003F0202) := by decide
/-- V-D4, V-D5. -/
theorem test_stop : shows (step (core 63 [0x0D] [])) = some (63, [], 1) ∧ shows (step (core 0 [0x0D] [1, 2])) = some (0, [1, 2], 1) := by decide
/-- V-D7, V-D9. -/
theorem test_illegal : shows (step (core 3 [0xFF] [])) = some (3, [], 0x00030102) ∧ shows (step (core 63 [0x0E] [])) = some (63, [], 0x003F0102) := by decide
/-- V-D10. -/
theorem test_not_running : refusalOf (step { core 0 [0x00] [] with status := 1 }) = some .coreHalted ∧
    refusalOf (step { core 0 [0x00] [] with status := 0x00000102 }) = some .coreFaulted ∧
    refusalOf (step { core 0 [0x00] [] with status := 3 }) = some .coreStateReserved := by decide
/-- V-S5, V-S9. -/
theorem test_push : shows (step (core 0 [0x01, 0x78, 0x56, 0x34, 0x12] [])) = some (5, [0x12345678], 0) ∧
    shows (step (core 58 [0x01, 9, 0, 0, 0] [])) = some (63, [9], 0) := by decide
/-- V-S8, V-S11, V-S12. -/
theorem test_push_faults : shows (step (core 0 [0x01, 9, 0, 0, 0] (List.replicate 14 1))) = some (0, List.replicate 14 1, 0x00000502) ∧
    shows (step (core 60 [0x01] [])) = some (60, [], 0x003C0202) ∧
    shows (step (core 59 [0x01, 9, 0, 0, 0] (List.replicate 14 1))) = some (59, List.replicate 14 1, 0x003B0502) := by decide
/-- V-S13, V-S15. -/
theorem test_pop_faults : shows (step (core 0 [0x02] [])) = some (0, [], 0x00000402) ∧ shows (step (core 63 [0x02] [4])) = some (63, [4], 0x003F0202) := by decide
/-- V-S14: the vacated slot keeps 6. -/
theorem test_pop : (stateOf (step (core 0 [0x02] [4, 5, 6]))).map (fun t => (t.ip, t.live, t.stk[2]?)) = some (1, [4, 5], some 6) := by decide
/-- V-X2. -/
theorem test_load : shows (step { core 0 [0x03, 0x0F] [] with x := (Vector.replicate 16 0).set 15 7 }) = some (2, [7], 0) := by decide
/-- V-X3, V-X5, V-X7. -/
theorem test_load_faults : shows (step (core 0 [0x03, 0x10] [])) = some (0, [], 0x00000302) ∧
    shows (step (core 0 [0x03, 0x00] (List.replicate 14 1))) = some (0, List.replicate 14 1, 0x00000502) ∧
    shows (step (core 63 [0x03] [])) = some (63, [], 0x003F0202) := by decide
/-- V-X9. -/
theorem test_store : (stateOf (step (core 0 [0x04, 0x0F] [1, 2]))).map (fun t => (t.ip, t.live, t.reg 15, t.reg 14)) = some (2, [1], 2, 0) := by decide
/-- V-X11, V-X13. -/
theorem test_store_faults : shows (step (core 0 [0x04, 0x10] [])) = some (0, [], 0x00000302) ∧
    (stateOf (step (core 62 [0x04, 0x00] [1]))).map (fun t => (t.status, t.reg 0, t.sp)) = some (0x003E0202, 0, 1) := by decide
/-- V-C2, V-C4, V-C5. -/
theorem test_jmp : shows (step (core 0 [0x05, 0x3F, 0x00] [])) = some (63, [], 0) ∧ shows (step (core 0 [0x05, 0xFF, 0xFF] [])) = some (0, [], 0x00000702) ∧
    shows (step (core 61 [0x05, 0x00, 0x00] [])) = some (0, [], 0) := by decide
/-- V-C8, V-C10. -/
theorem test_jz : shows (step (core 0 [0x06, 0x14, 0x00] [0])) = some (20, [], 0) ∧ shows (step (core 10 [0x06, 0xFF, 0xFF] [1])) = some (13, [], 0) := by decide
/-- V-C11, V-C13, V-C14. -/
theorem test_jz_faults : shows (step (core 10 [0x06, 0xFF, 0xFF] [0])) = some (10, [0], 0x000A0702) ∧
    shows (step (core 61 [0x06, 0x14, 0x00] [1])) = some (61, [1], 0x003D0202) ∧ shows (step (core 62 [0x06] [])) = some (62, [], 0x003E0202) := by decide
/-- V-C15, V-C16, V-C19. -/
theorem test_jnz : shows (step (core 22 [0x07, 0x07, 0x00] [intMin])) = some (7, [], 0) ∧ shows (step (core 22 [0x07, 0x07, 0x00] [0])) = some (25, [], 0) ∧
    shows (step (core 0 [0x07, 0x07, 0x00] [3, 0])) = some (3, [3], 0) := by decide
/-- V-A3, V-A8, V-A5. -/
theorem test_add : shows (step (core 0 [0x08] [intMax, 1])) = some (1, [intMin], 0) ∧ shows (step (core 0 [0x08] [7, 8, 9])) = some (1, [7, 17], 0) ∧
    shows (step (core 0 [0x08] [5])) = some (0, [5], 0x00000402) := by decide
/-- V-A9, V-A11, V-A12. -/
theorem test_sub : shows (step (core 0 [0x09] [10, 3])) = some (1, [7], 0) ∧ shows (step (core 0 [0x09] [intMin, 1])) = some (1, [intMax], 0) ∧
    shows (step (core 0 [0x09] [0, intMin])) = some (1, [intMin], 0) := by decide
/-- V-A13, V-A14, V-A16. -/
theorem test_mul : shows (step (core 0 [0x0A] [6, -7])) = some (1, [-42], 0) ∧ shows (step (core 0 [0x0A] [65536, 65536])) = some (1, [0], 0) ∧
    shows (step (core 0 [0x0A] [intMin, -1])) = some (1, [intMin], 0) := by decide
/-- V-A18, V-A19, V-A20, V-A23. -/
theorem test_div : shows (step (core 0 [0x0B] [-7, 2])) = some (1, [-3], 0) ∧ shows (step (core 0 [0x0B] [7, -2])) = some (1, [-3], 0) ∧
    shows (step (core 0 [0x0B] [-7, -2])) = some (1, [3], 0) ∧ shows (step (core 0 [0x0B] [intMin, -1])) = some (1, [intMin], 0) := by decide
/-- V-A25, V-A26, V-A27. -/
theorem test_div_faults : shows (step (core 0 [0x0B] [5, 0])) = some (0, [5, 0], 0x00000602) ∧ shows (step (core 0 [0x0B] [0])) = some (0, [0], 0x00000402) ∧
    shows (step (core 63 [0x0B] [9, 0])) = some (63, [9, 0], 0x003F0602) := by decide
/-- V-O2, V-O6. -/
theorem test_print : (stateOf (step (core 0 [0x0C] [-1]))).map (fun t => (t.ip, t.live, t.out)) = some (1, [], [-1]) ∧
    (stateOf (step (core 63 [0x0C] [5]))).map (fun t => (t.status, t.live, t.out)) = some (0x003F0202, [5], []) := by decide
/-- V-O1 to V-O4, rendered. -/
theorem test_decimal : decimal 5 = ['5'] ∧ decimal (-1) = ['-', '1'] ∧ decimal intMin = "-2147483648".toList ∧ decimal 0 = ['0'] := by decide

/-! ### The host's operations, from 95_test_vectors.md section 2.7 -/

/-- V-H3, V-H5. -/
theorem test_load_program : (State.reset.load (List.replicate 65 1)).1 = .programTooLarge ∧ (State.reset.load (List.replicate 65 1)).2.imem = [] ∧
    ((State.reset.load [1, 2, 3]).2.load [9]).2.imem = [(0, 9)] ∧ (State.reset.load (List.replicate 64 1)).1 = .ok := by decide
/-- V-H6: the phase after a step refuses a load. -/
theorem test_load_after_step : (stateOf (step (core 0 [0x00] []))).map (fun t => (t.load [9]).1) = some .refused := by decide
/-- The host's own checks: the table word runs as the first instruction after reset. -/
theorem test_withFetchWord : shows (step (State.reset.withFetchWord 40 0x0000000501)) = some (5, [5], 0) ∧
    shows (step (State.reset.withFetchWord 16 0x0003)) = some (2, [0], 0) := by decide
/-- 60_exceptions.md R75: the snapshot is of the state the step starts from, its window cut at the end of the store. -/
theorem test_trace : (stateOf (step { core 62 [0x00, 0x0D] [7] with cfg := { Config.reference with traceOn := true } })).map
    (fun t => t.trace.map fun n => (n.ip, n.sp, n.window, n.slots)) = some [(62, 1, [0x00, 0x0D], [7, 0, 0, 0])] := by decide

/-! ### Witnesses: the hypotheses of each statement are met together, each clause at a boundary of its range -/

theorem witness_OpcodeMapIsExact : Opcode.ofByte 13 = some .stop ∧ 13 < (14 : Byte).toNat ∧ decode (13 :: []) = .ok (.stop, []) := ⟨by decide, by decide, rfl⟩
theorem witness_OperandsAreLittleEndian : fetch (core 59 [0x01, 0xFF, 0xFF, 0xFF, 0xFF] []) = .ok (.push (-1)) ∧ fetch (core 61 [0x05, 0xFF, 0xFF] []) = .ok (.jmp 65535) ∧
    fetch (core 61 [0x06, 0x01, 0x00] []) = .ok (.jz 1) ∧ fetch (core 61 [0x07, 0x00, 0x01] []) = .ok (.jnz 256) := ⟨rfl, rfl, rfl, rfl⟩
theorem witness_EncodeOfDecodeIsBytes : decode [0x05, 0xFF, 0xFF, 0x00] = .ok (.jmp 65535, [0x00]) := rfl
theorem witness_DecodeRejectsExactly : 13 < (14 : Byte).toNat ∧
    (Opcode.ofByte 1 = some .push ∧ [0, 0, 0].length + 1 < Opcode.push.width) ∧
    (Opcode.ofByte 1 = some .push ∧ Opcode.push.width ≤ [0, 0, 0, 0].length + 1) := by decide
theorem witness_AssemblyLineRoundTrip : (∀ o : Opcode, o.mnemonic ≠ "and") ∧ Instr.wellFormed (.store 15) = true ∧
    assemble "jz" (some (.hex 65535)) = some (.jz 65535) := ⟨by intro o; cases o <;> decide, by decide, by decide⟩
theorem witness_StepRunsDecodedInstruction : (core 59 [0x01, 9, 0, 0, 0] []).runState = .running ∧
    decode (Memory.bytes (core 59 [0x01, 9, 0, 0, 0] []).imem 59 (64 - 59)) = .ok (.push 9, []) := ⟨by decide, rfl⟩
theorem witness_IllegalOpcodeFaults : (core 63 [0x0E] []).runState = .running ∧ (core 63 [0x0E] []).ip.toNat < 64 ∧ 13 < (core 63 [0x0E] []).opByte.toNat := by decide
theorem witness_InstructionBeyondStoreFaults : (core 60 [0x01] []).runState = .running ∧ (core 60 [0x01] []).ip.toNat < 64 ∧
    Opcode.ofByte (core 60 [0x01] []).opByte = some .push ∧ 64 < (core 60 [0x01] []).ip.toNat + Opcode.push.width := by decide
theorem witness_FetchedOperandsAreMemReads : fetch (core 61 [0x06, 0xFF, 0xFF] []) = .ok (.jz 65535) := rfl
theorem witness_NoStepAfterHaltOrFault : State.runState { State.reset with status := 1 } = .halted ∧ State.runState { State.reset with status := 0x003F0702 } = .faulted := by decide
theorem witness_ResetMeetsInvariant : Config.Valid { Config.reference with imemCap := 1, stackCap := 3 } ∧ Config.Valid { Config.reference with imemCap := 65536 } := by decide

/-- The invariant holds of reset and of a state with the deepest stack at the last address; a step of it answers. -/
theorem witness_InvariantKeptByEveryStep : State.reset.Inv ∧
    { core 63 [0x0D] (List.replicate 14 1) with phase := .started }.Inv ∧
    ∃ t, step { core 63 [0x0D] (List.replicate 14 1) with phase := .started } = .next t := ⟨by decide, by decide, _, rfl⟩
theorem witness_StateTypeKeptByEveryStep : (core 0 [0x08] (List.replicate 16 1)).WF ∧ ∃ t, step (core 0 [0x08] (List.replicate 16 1)) = .next t := ⟨by decide, _, rfl⟩
theorem witness_RunningStepAnswersNext : (core 63 [0x08] (List.replicate 16 1)).WF ∧ (core 63 [0x08] (List.replicate 16 1)).runState = .running := by decide
theorem witness_InvariantKeptByHost : State.reset.Inv := by decide
theorem witness_IpChangesInThreeWays : (core 61 [0x07, 0x3F, 0x00] [1]).WF ∧ ∃ t, step (core 61 [0x07, 0x3F, 0x00] [1]) = .next t := ⟨by decide, _, rfl⟩
theorem witness_HeadroomIsNeverUsed : (core 0 [0x03, 0x00] (List.replicate 13 1)).sp + 2 ≤ 16 ∧
    (stateOf (step (core 0 [0x03, 0x00] (List.replicate 13 1)))).map (·.sp) = some 14 := by decide
theorem witness_InstructionStoreNeverWritten : (∃ t, step (core 0 [0x04, 0x00] [9]) = .next t) ∧ State.phase { State.reset with phase := .started } = .started := ⟨⟨_, rfl⟩, rfl⟩
theorem witness_OnlyStoreWritesRegisters : fetch (core 0 [0x04, 0x0F] [9]) = .ok (.store 15) ∧
    (stateOf (step (core 0 [0x04, 0x0F] [9]))).map (fun t => t.reg 15) = some 9 := ⟨rfl, by decide⟩
theorem witness_OnlyCompletedPrintEmits : (∃ t, step (core 62 [0x0C] [9]) = .next t ∧ t.out = [9]) ∧ ∃ t, step (core 63 [0x0C] [9]) = .next t ∧ t.out = [] := ⟨⟨_, rfl, rfl⟩, _, rfl, rfl⟩
theorem witness_OnlyStopOrFaultEndsRunning : (∃ t, step (core 0 [0x00] []) = .next t) ∧ (∃ t, step (core 0 [0x0D] []) = .next t) ∧ ∃ t, step (core 0 [0x02] []) = .next t := ⟨⟨_, rfl⟩, ⟨_, rfl⟩, _, rfl⟩
theorem witness_FaultingStepChangesOnlyStatus : ∃ t, step (core 0 [0x0B] [5, 0]) = .next t ∧ t.runState = .faulted := ⟨_, rfl, by decide⟩

theorem witness_NopAdvances : (core 62 [] []).WF ∧ (core 62 [] []).ip.toNat + 1 < 64 ∧ (core 63 [] []).WF ∧ (core 63 [] []).ip.toNat + 1 = 64 := by decide
theorem witness_StopHalts : State.reset.status = 0 := rfl
theorem witness_PushPushesImmediate :
    ((core 60 [0x01] []).WF ∧ (core 60 [0x01] []).runState = .running ∧ (core 60 [0x01] []).opByte = 0x01 ∧ 64 < (core 60 [0x01] []).ip.toNat + 5) ∧
    ((core 0 [] (List.replicate 14 1)).WF ∧ 16 - 2 ≤ (core 0 [] (List.replicate 14 1)).sp) ∧
    ((core 59 [] (List.replicate 13 1)).WF ∧ (core 59 [] (List.replicate 13 1)).sp < 16 - 2 ∧ 64 ≤ (core 59 [] (List.replicate 13 1)).ip.toNat + 5) ∧
    ((core 58 [] (List.replicate 13 1)).WF ∧ (core 58 [] (List.replicate 13 1)).ip.toNat + 5 < 64) := by decide
theorem witness_PopDiscardsTop : ((core 63 [] []).WF ∧ (core 63 [] []).sp = 0) ∧ ((core 63 [] [1]).WF ∧ 0 < (core 63 [] [1]).sp ∧ (core 63 [] [1]).ip.toNat + 1 = 64) ∧
    ((core 62 [] [1]).WF ∧ 0 < (core 62 [] [1]).sp ∧ (core 62 [] [1]).ip.toNat + 1 < 64) := by decide
theorem witness_LoadPushesRegister :
    ((core 63 [0x03] []).WF ∧ (core 63 [0x03] []).runState = .running ∧ (core 63 [0x03] []).opByte = 0x03 ∧ 64 < (core 63 [0x03] []).ip.toNat + 2) ∧
    16 ≤ (16 : Byte).toNat ∧ (15 : Byte).toNat < 16 ∧
    ((core 62 [] (List.replicate 14 1)).WF ∧ 16 - 2 ≤ (core 62 [] (List.replicate 14 1)).sp) ∧
    ((core 62 [] (List.replicate 13 1)).WF ∧ (core 62 [] (List.replicate 13 1)).sp < 16 - 2 ∧ 64 ≤ (core 62 [] (List.replicate 13 1)).ip.toNat + 2) ∧
    ((core 61 [] (List.replicate 13 1)).WF ∧ (core 61 [] (List.replicate 13 1)).ip.toNat + 2 < 64) := by decide
theorem witness_StorePopsIntoRegister :
    ((core 63 [0x04] []).WF ∧ (core 63 [0x04] []).opByte = 0x04 ∧ (core 63 [0x04] []).runState = .running ∧ 64 < (core 63 [0x04] []).ip.toNat + 2) ∧
    16 ≤ (16 : Byte).toNat ∧ (15 : Byte).toNat < 16 ∧ (core 62 [] []).sp = 0 ∧
    ((core 62 [] [1]).WF ∧ 0 < (core 62 [] [1]).sp ∧ 64 ≤ (core 62 [] [1]).ip.toNat + 2) ∧
    ((core 61 [] [1]).WF ∧ 0 < (core 61 [] [1]).sp ∧ (core 61 [] [1]).ip.toNat + 2 < 64) := by decide
theorem witness_JmpSetsIp :
    ((core 62 [0x05] []).WF ∧ (core 62 [0x05] []).runState = .running ∧ (core 62 [0x05] []).opByte = 0x05 ∧ 64 < (core 62 [0x05] []).ip.toNat + 3) ∧
    64 ≤ (64 : Addr).toNat ∧ (63 : Addr).toNat < 64 := by decide
theorem witness_JzJumpsOnZero :
    ((core 62 [0x06] []).WF ∧ (core 62 [0x06] []).runState = .running ∧ (core 62 [0x06] []).opByte = 0x06 ∧ 64 < (core 62 [0x06] []).ip.toNat + 3) ∧
    (core 61 [] []).sp = 0 ∧ ((core 61 [] [0]).WF ∧ 0 < (core 61 [] [0]).sp ∧ (core 61 [] [0]).slot 0 = 0) ∧ 64 ≤ (64 : Addr).toNat ∧ (63 : Addr).toNat < 64 ∧
    ((core 61 [] [intMin]).WF ∧ 0 < (core 61 [] [intMin]).sp ∧ (core 61 [] [intMin]).slot 0 ≠ 0 ∧ 64 ≤ (core 61 [] [intMin]).ip.toNat + 3) ∧
    ((core 60 [] [intMin]).WF ∧ (core 60 [] [intMin]).slot 0 ≠ 0 ∧ (core 60 [] [intMin]).ip.toNat + 3 < 64) := by decide
theorem witness_JnzJumpsOnNonzero :
    ((core 62 [0x07] []).WF ∧ (core 62 [0x07] []).runState = .running ∧ (core 62 [0x07] []).opByte = 0x07 ∧ 64 < (core 62 [0x07] []).ip.toNat + 3) ∧
    (core 61 [] []).sp = 0 ∧ ((core 61 [] [intMin]).WF ∧ 0 < (core 61 [] [intMin]).sp ∧ (core 61 [] [intMin]).slot 0 ≠ 0) ∧ 64 ≤ (64 : Addr).toNat ∧ (63 : Addr).toNat < 64 ∧
    ((core 61 [] [0]).WF ∧ 0 < (core 61 [] [0]).sp ∧ (core 61 [] [0]).slot 0 = 0 ∧ 64 ≤ (core 61 [] [0]).ip.toNat + 3) ∧
    ((core 60 [] [0]).WF ∧ (core 60 [] [0]).slot 0 = 0 ∧ (core 60 [] [0]).ip.toNat + 3 < 64) := by decide

/-- The clauses of the statements about ADD, SUB and MUL: fewer than two values; two values at the last address; fifteen values at the one before. -/
theorem witness_arithmetic : ((core 63 [] [1]).WF ∧ (core 63 [] [1]).sp < 2) ∧
    ((core 63 [] [1, 2]).WF ∧ 2 ≤ (core 63 [] [1, 2]).sp ∧ (core 63 [] [1, 2]).sp < 16 ∧ (core 63 [] [1, 2]).ip.toNat + 1 = 64) ∧
    ((core 62 [] (List.replicate 15 1)).WF ∧ 2 ≤ (core 62 [] (List.replicate 15 1)).sp ∧ (core 62 [] (List.replicate 15 1)).sp < 16 ∧
      (core 62 [] (List.replicate 15 1)).ip.toNat + 1 < 64) := by decide
theorem witness_AddWraps : (core 62 [] [1, 2]).WF ∧ 2 ≤ (core 62 [] [1, 2]).sp ∧ (core 62 [] [1, 2]).ip.toNat + 1 < 64 := by decide
theorem witness_SubWraps : (core 62 [] [1, 2]).WF ∧ 2 ≤ (core 62 [] [1, 2]).sp ∧ (core 62 [] [1, 2]).ip.toNat + 1 < 64 := by decide
theorem witness_MulWraps : (core 62 [] [1, 2]).WF ∧ 2 ≤ (core 62 [] [1, 2]).sp ∧ (core 62 [] [1, 2]).ip.toNat + 1 < 64 := by decide
theorem witness_DivTruncates : ((core 63 [] [0]).WF ∧ (core 63 [] [0]).sp < 2) ∧ ((core 63 [] [9, 0]).WF ∧ 2 ≤ (core 63 [] [9, 0]).sp ∧ (core 63 [] [9, 0]).slot 1 = 0) ∧
    ((core 63 [] [9, 3]).WF ∧ (core 63 [] [9, 3]).slot 1 ≠ 0 ∧ (core 63 [] [9, 3]).ip.toNat + 1 = 64) ∧
    ((core 62 [] [9, 3]).WF ∧ (core 62 [] [9, 3]).slot 1 ≠ 0 ∧ (core 62 [] [9, 3]).ip.toNat + 1 < 64) := by decide
theorem witness_PrintEmitsTop : (core 63 [] []).WF ∧ (core 63 [] []).sp = 0 ∧ ((core 63 [] [1]).WF ∧ 0 < (core 63 [] [1]).sp ∧ (core 63 [] [1]).ip.toNat + 1 = 64) ∧
    ((core 62 [] [1]).WF ∧ 0 < (core 62 [] [1]).sp ∧ (core 62 [] [1]).ip.toNat + 1 < 64) := by decide

theorem witness_FrameOfNopJmpStop : (∃ t, exec .nop (core 62 [] [1]) = .next t) ∧ (∃ t, exec (.jmp 63) (core 0 [] [1]) = .next t) ∧ ∃ t, exec .stop (core 63 [] [1]) = .next t := ⟨⟨_, rfl⟩, ⟨_, rfl⟩, _, rfl⟩
theorem witness_FrameOfConsumers : (∃ t, exec .pop (core 62 [] [1]) = .next t) ∧ (∃ t, exec (.jz 63) (core 0 [] [0]) = .next t) ∧
    (∃ t, exec (.jnz 63) (core 0 [] [1]) = .next t) ∧ ∃ t, exec .print (core 62 [] [1]) = .next t := ⟨⟨_, rfl⟩, ⟨_, rfl⟩, ⟨_, rfl⟩, _, rfl⟩
theorem witness_FrameOfStore : ∃ t, exec (.store 15) (core 61 [] [1]) = .next t ∧ t.reg 15 = 1 := ⟨_, rfl, by decide⟩
theorem witness_FrameOfPushLoad : (∃ t, exec (.push 9) (core 58 [] [1]) = .next t) ∧ ∃ t, exec (.load 15) (core 61 [] [1]) = .next t := ⟨⟨_, rfl⟩, _, rfl⟩
theorem witness_FrameOfArithmetic : (∃ t, exec .add (core 62 [] [1, 2]) = .next t) ∧ (∃ t, exec .sub (core 62 [] [1, 2]) = .next t) ∧
    (∃ t, exec .mul (core 62 [] [1, 2]) = .next t) ∧ ∃ t, exec .div (core 62 [] [1, 2]) = .next t := ⟨⟨_, rfl⟩, ⟨_, rfl⟩, ⟨_, rfl⟩, _, rfl⟩
theorem witness_PushThenPopRestoresSp : (core 57 [] (List.replicate 13 1)).WF ∧ (core 57 [] (List.replicate 13 1)).sp < 16 - 2 ∧ (core 57 [] (List.replicate 13 1)).ip.toNat + 6 < 64 := by decide
theorem witness_StoreThenLoadLeavesValue : (15 : Byte).toNat < 16 ∧ (core 59 [] (List.replicate 14 1)).WF ∧ 0 < (core 59 [] (List.replicate 14 1)).sp ∧
    (core 59 [] (List.replicate 14 1)).sp + 2 ≤ 16 ∧ (core 59 [] (List.replicate 14 1)).ip.toNat + 4 < 64 := by decide
theorem witness_ArithmeticWrapsExactResult : (core 62 [] [intMax, 1]).WF ∧ 2 ≤ (core 62 [] [intMax, 1]).sp ∧ (core 62 [] [intMax, 1]).sp < 16 ∧ (core 62 [] [intMax, 1]).ip.toNat + 1 < 64 := by decide
theorem witness_QuotientRoundsTowardZero : ((core 62 [] [intMin, -1]).WF ∧ (core 62 [] [intMin, -1]).slot 1 ≠ 0 ∧ (core 62 [] [intMin, -1]).slot 0 = intMin ∧ (core 62 [] [intMin, -1]).slot 1 = -1) ∧
    ((core 62 [] [-7, 2]).WF ∧ 2 ≤ (core 62 [] [-7, 2]).sp ∧ (core 62 [] [-7, 2]).slot 1 ≠ 0 ∧ ¬((core 62 [] [-7, 2]).slot 0 = intMin ∧ (core 62 [] [-7, 2]).slot 1 = -1)) := by decide
/-- Two states that differ in a dead slot. -/
theorem witness_DeadSlotsInfluenceNothing : State.SameLive (core 0 [0x02] [1]) { core 0 [0x02] [1] with stk := (core 0 [0x02] [1]).stk.set 1 99 } ∧
    (core 0 [0x02] [1]).stk ≠ (core 0 [0x02] [1]).stk.set 1 99 :=
  ⟨⟨rfl, by decide, by decide⟩, by decide⟩
theorem witness_TraceShowsStateBeforeStep : (∃ t, step (core 0 [0x00] []) = .next t) ∧
    ∃ t, step { core 63 [0x0D] [] with cfg := { Config.reference with traceOn := true } } = .next t := ⟨⟨_, rfl⟩, _, rfl⟩
theorem witness_ResetZeroesEverything : State.runState { State.reset with status := 1 } ≠ .running := by decide
theorem witness_LoadReplacesWholeStore : State.reset.phase = .loadable ∧ 64 < (List.replicate 65 (1 : Byte)).length ∧ (List.replicate 64 (1 : Byte)).length ≤ 64 ∧
    State.phase { State.reset with phase := .started } = .started := by decide
theorem witness_StoppedRunResumes : ((core 0 [0x00] []).run 1).1 = .budgetSpent ∧ ((core 0 [0x0D] []).run 1).1 = .halted := by decide
theorem witness_RunReportsItsEnd : (core 0 [0x0D] []).WF ∧ (core 0 [0x0D] []).runState ≠ .reserved := by decide
theorem witness_SelfJumpNeverEnds : (core 5 [0x05, 0x05, 0x00] []).WF ∧ (core 5 [0x05, 0x05, 0x00] []).runState = .running ∧ fetch (core 5 [0x05, 0x05, 0x00] []) = .ok (.jmp 5) :=
  ⟨by decide, by decide, rfl⟩
theorem witness_ZeroTailEndsInFetchFault : (core 5 [] [5]).WF ∧ (core 5 [] [5]).runState = .running ∧ ∀ a, Memory.read (core 5 [] [5]).imem a = 0 :=
  ⟨by decide, by decide, fun _ => rfl⟩
theorem witness_StackGrowsUpwardFromSlotZero : (∃ t, push 9 (core 0 [] (List.replicate 13 1)) = .ok t) ∧ (∃ t, pop (core 0 [] [9]) = .ok (9, t)) ∧
    (core 0 [] (List.replicate 14 1)).WF ∧ ∃ t, step (core 0 [0x01, 9, 0, 0, 0] (List.replicate 13 1)) = .next t := ⟨⟨_, rfl⟩, ⟨_, rfl⟩, by decide, _, rfl⟩
theorem witness_StoresReadingAlikeAreEqual : Memory.wf (Memory.ofBytes [1, 0, 2]) = true ∧ Memory.ofBytes [1, 0, 2] = [(0, 1), (2, 2)] := by decide

end Sys2Proof.Machine.Slice0
end

section
/-! PROOFS. The decoder inverted: the bytes read as an instruction are its encoding and then the rest (spec 30_encoding.md R29 to R33). -/

namespace Sys2Proof

/-- The per-instruction lengths put together: every encoding has the opcode's width, one to five bytes (30_encoding.md R29). -/
theorem encode_lengthStatement : ∀ i : Instr, Laws.EncodeLength.Statement i
  | .nop => Laws.EncodeLength.nop
  | .push imm => Laws.EncodeLength.push imm
  | .pop => Laws.EncodeLength.pop
  | .load r => Laws.EncodeLength.load r
  | .store r => Laws.EncodeLength.store r
  | .jmp t => Laws.EncodeLength.jmp t
  | .jz t => Laws.EncodeLength.jz t
  | .jnz t => Laws.EncodeLength.jnz t
  | .add => Laws.EncodeLength.add
  | .sub => Laws.EncodeLength.sub
  | .mul => Laws.EncodeLength.mul
  | .div => Laws.EncodeLength.div
  | .print => Laws.EncodeLength.print
  | .stop => Laws.EncodeLength.stop

@[simp] theorem encode_length (i : Instr) : (encode i).length = i.width := (encode_lengthStatement i).1

theorem Instr.width_pos (i : Instr) : 0 < i.width := (encode_lengthStatement i).2.1

theorem Instr.width_eq_operandBytes_length (i : Instr) : i.width = i.operandBytes.length + 1 := (encode_length i).symm

/-- The bytes of an immediate, cut out of the word they make. -/
theorem imm32_bytes (b0 b1 b2 b3 : Byte) :
    (imm32 b0 b1 b2 b3).extractLsb' 0 8 = b0 ∧ (imm32 b0 b1 b2 b3).extractLsb' 8 8 = b1 ∧
      (imm32 b0 b1 b2 b3).extractLsb' 16 8 = b2 ∧ (imm32 b0 b1 b2 b3).extractLsb' 24 8 = b3 := by
  have h0 := b0.isLt
  have h1 := b1.isLt
  have h2 := b2.isLt
  have h3 := b3.isLt
  refine ⟨?_, ?_, ?_, ?_⟩ <;> apply BitVec.eq_of_toNat_eq <;>
    simp only [BitVec.extractLsb'_toNat, imm32_toNat, Nat.shiftRight_eq_div_pow] <;> omega

/-- The bytes of a target, cut out of the address they make. -/
theorem target16_bytes (lo hi : Byte) :
    (target16 lo hi).extractLsb' 0 8 = lo ∧ (target16 lo hi).extractLsb' 8 8 = hi := by
  have hl := lo.isLt
  have hh := hi.isLt
  refine ⟨?_, ?_⟩ <;> apply BitVec.eq_of_toNat_eq <;>
    simp only [BitVec.extractLsb'_toNat, target16_toNat, Nat.shiftRight_eq_div_pow] <;> omega

/-- What reading an opcode's operands can answer: an instruction of that opcode, whose operand bytes stand before the rest. -/
theorem operands_eq_some {o : Opcode} {bs rest : List Byte} {i : Instr} (h : operands o bs = some (i, rest)) :
    i.opcode = o ∧ bs = i.operandBytes ++ rest := by
  unfold operands at h
  split at h <;> cases h <;> simp [Instr.opcode, Instr.operandBytes, imm32_bytes, target16_bytes]

/-- What the decoder can answer: an instruction whose encoding stands before the rest. -/
theorem eq_encode_append_of_decode {bs rest : List Byte} {i : Instr} (h : decode bs = .ok (i, rest)) :
    bs = encode i ++ rest := by
  cases bs with
  | nil => cases h
  | cons b bs =>
    obtain ⟨o, hb, ho⟩ := decode_cons_eq_ok.1 h
    obtain ⟨rfl, rfl⟩ := operands_eq_some ho
    rw [Opcode.byte_of_ofByte hb]
    rfl

end Sys2Proof
end

section
/-! PROOFS. What the fetch answers: the instruction whose encoding stands at ip, the whole of it inside the store (spec 00_scope.md R7; 40_dispatch.md R38 to R40). -/

namespace Sys2Proof.Machine

theorem fetch_eq_ok {s : State} {i : Instr} :
    fetch s = .ok i ↔ ∃ rest, decode (s.bytesAtIp maxWidth) = .ok (i, rest) := by
  unfold fetch
  split <;> simp_all

/-- A fetched instruction lies wholly below IMEM_CAP, and the bytes of the store from ip are its encoding. -/
theorem bytes_eq_encode_of_fetch {s : State} {i : Instr} (h : fetch s = .ok i) :
    s.ip.toNat + i.width ≤ s.cfg.imemCap ∧ Memory.bytes s.imem s.ip.toNat i.width = encode i := by
  obtain ⟨rest, hd⟩ := fetch_eq_ok.1 h
  have hb : s.bytesAtIp maxWidth = encode i ++ rest := eq_encode_append_of_decode hd
  have hw : i.width ≤ min maxWidth (s.cfg.imemCap - s.ip.toNat) := by
    have hlen := congrArg List.length hb
    simp only [State.bytesAtIp, Memory.length_bytes, List.length_append, encode_length] at hlen
    omega
  have hpos := i.width_pos
  refine ⟨by omega, ?_⟩
  calc Memory.bytes s.imem s.ip.toNat i.width
      = (s.bytesAtIp maxWidth).take i.width := by rw [State.bytesAtIp, Memory.bytes_take, Nat.min_eq_left hw]
    _ = encode i := by rw [hb, ← encode_length, List.take_left]

/-- A fetched instruction's opcode byte is the byte at ip, and its operand bytes are the ones after it. -/
theorem opByte_and_operandBytes_of_fetch {s : State} {i : Instr} (h : fetch s = .ok i) :
    s.opByte = i.opcode.byte ∧ Memory.bytes s.imem (s.ip.toNat + 1) i.operandBytes.length = i.operandBytes := by
  obtain ⟨-, hb⟩ := bytes_eq_encode_of_fetch h
  rw [i.width_eq_operandBytes_length] at hb
  exact List.cons_eq_cons.1 hb

/-- The little-endian value of a fetched instruction's operand bytes is the MemRead after its opcode (00_scope.md R7). -/
theorem memRead_of_fetch {s : State} {i : Instr} (h : fetch s = .ok i) :
    Memory.memRead s.imem (s.ip.toNat + 1) i.operandBytes.length = leNat i.operandBytes :=
  congrArg leNat (opByte_and_operandBytes_of_fetch h).2

/-- The bytes of an immediate have its value, the first least significant. -/
theorem leNat_operandBytes_push (imm : Word) : leNat (Instr.push imm).operandBytes = imm.toNat := by
  conv_rhs => rw [← imm32_extract imm, imm32_toNat]
  simp only [Instr.operandBytes, leNat]
  omega

/-- The bytes of a target have its value, the low byte first. -/
theorem leNat_target (t : Addr) : leNat [t.extractLsb' 0 8, t.extractLsb' 8 8] = t.toNat := by
  conv_rhs => rw [← target16_extract t, target16_toNat]
  simp only [leNat]
  omega

end Sys2Proof.Machine
end

section
/-! PROOFS. The statements of 00_scope.md. -/

namespace Sys2Proof.Machine

/-- Settles O11: the bytes from ip are the fetched instruction's encoding, so each operand is the little-endian value of the bytes after the opcode. -/
theorem fetchedOperandsAreMemReads : Obligations.FetchedOperandsAreMemReads := by
  unfold Obligations.FetchedOperandsAreMemReads
  intro s i h
  obtain ⟨hinside, -⟩ := bytes_eq_encode_of_fetch h
  obtain ⟨hop, -⟩ := opByte_and_operandBytes_of_fetch h
  have hread := (memRead_of_fetch h).symm
  refine ⟨hinside, hop.symm, ?_⟩
  cases i with
  | push imm => exact (leNat_operandBytes_push imm).symm.trans hread
  | load r | store r => exact hread
  | jmp t | jz t | jnz t => exact (leNat_target t).symm.trans hread
  | nop | pop | add | sub | mul | div | print | stop => trivial

end Sys2Proof.Machine
end

section
/-! PROOFS. What a step can do, said once: a fault entry or the completion of the fetched instruction; and what every completion does to each part
of the state. -/

namespace Sys2Proof.Machine

/-- A step that answers took a fault entry, or completed the instruction it fetched. -/
theorem step_cases {s t : State} (h : step s = .next t) :
    (∃ k, t = s.startStep.raised k) ∨ ∃ i, fetch s = .ok i ∧ Completes i s.startStep t := by
  obtain ⟨-, ⟨i, hf, he⟩ | ⟨k, -, ht⟩⟩ := step_eq_next.1 h
  · exact (exec_cases he).imp_right fun hc => ⟨i, hf, hc⟩
  · exact .inl ⟨k, ht⟩

section
variable {i : Instr} {s t : State}

theorem Completes.cfg_eq (h : Completes i s t) : t.cfg = s.cfg := by cases h <;> rfl

theorem Completes.imem_eq (h : Completes i s t) : t.imem = s.imem := by cases h <;> rfl

theorem Completes.phase_eq (h : Completes i s t) : t.phase = s.phase := by cases h <;> rfl

/-- STOP halts; every other completion leaves status alone. -/
theorem Completes.status_cases (h : Completes i s t) : t = s.halt ∨ t.status = s.status := by
  cases h with
  | stop => exact .inl rfl
  | _ => exact .inr rfl

/-- STOP keeps ip; a taken jump goes to its valid target; every other completion goes past the instruction, below IMEM_CAP. -/
theorem Completes.ip_cases (h : Completes i s t) :
    t = s.halt ∨ ((i = .jmp t.ip ∨ i = .jz t.ip ∨ i = .jnz t.ip) ∧ t.ip.toNat < s.cfg.imemCap) ∨
      (i ≠ .stop ∧ s.ip.toNat + i.width < s.cfg.imemCap ∧ t.ip = BitVec.ofNat 16 (s.ip.toNat + i.width)) := by
  cases h with
  | stop => exact .inl rfl
  | jmp ht => exact .inr (.inl ⟨.inl rfl, ht⟩)
  | jzTaken _ _ _ ht => exact .inr (.inl ⟨.inr (.inl rfl), ht⟩)
  | jnzTaken _ _ _ ht => exact .inr (.inl ⟨.inr (.inr rfl), ht⟩)
  | nop hip | pop _ _ hip | print _ _ hip | push _ _ hip | load _ _ _ _ hip | store _ _ _ _ hip | jzPast _ _ _ hip
  | jnzPast _ _ _ hip => exact .inr (.inr ⟨nofun, hip, rfl⟩)
  | alu _ _ _ hi _ hip =>
    rcases hi with ⟨rfl, -⟩ | ⟨rfl, -⟩ | ⟨rfl, -⟩ | ⟨rfl, -⟩ <;> exact .inr (.inr ⟨nofun, hip, rfl⟩)

/-- Only PUSH and LOAD raise sp, and write the slot it named; ADD, SUB, MUL and DIV write the slot two below sp; the others write none. -/
theorem Completes.stack_cases (h : Completes i s t) :
    (t.sp ≤ s.sp ∧ t.stk = s.stk) ∨
      (((∃ imm, i = .push imm) ∨ ∃ r, i = .load r) ∧ s.sp + 2 < s.cfg.stackCap ∧ t.sp = s.sp + 1 ∧ ∃ v, t.stk = s.stk.set s.sp v) ∨
      (2 ≤ s.sp ∧ t.sp + 1 = s.sp ∧ ∃ v, t.stk = s.stk.set (s.sp - 2) v) := by
  cases h with
  | nop | stop | jmp => exact .inl ⟨Nat.le_refl _, rfl⟩
  | pop | store | jzTaken | jzPast | jnzTaken | jnzPast | print => exact .inl ⟨Nat.sub_le .., rfl⟩
  | push hcap => exact .inr (.inl ⟨.inl ⟨_, rfl⟩, hcap, rfl, _, rfl⟩)
  | load _ _ hcap => exact .inr (.inl ⟨.inr ⟨_, rfl⟩, hcap, rfl, _, rfl⟩)
  | @alu _ _ _ _ v hsp =>
    refine .inr (.inr ⟨hsp, ?_, v, ?_⟩)
    · change s.sp - 1 - 1 + 1 + 1 = s.sp
      omega
    · change s.stk.set (s.sp - 1 - 1) v = _
      rw [Nat.sub_sub]

/-- STORE writes its own register, with the popped word; every other completion leaves the register file alone. -/
theorem Completes.x_cases (h : Completes i s t) :
    t.x = s.x ∨ ∃ (r : Byte) (k : Fin 16) (v : Word), i = .store r ∧ r.toNat = k.val ∧ 0 < s.sp ∧
      s.stk[s.sp - 1]? = some v ∧ t.x = s.x.set k v := by
  cases h with
  | store k hr hsp hv => exact .inr ⟨_, k, _, rfl, hr, hsp, hv, rfl⟩
  | _ => exact .inl rfl

theorem step_cfg_eq (h : step s = .next t) : t.cfg = s.cfg := by
  obtain ⟨k, rfl⟩ | ⟨i, -, hc⟩ := step_cases h
  · rfl
  · exact hc.cfg_eq

theorem step_imem_eq (h : step s = .next t) : t.imem = s.imem := by
  obtain ⟨k, rfl⟩ | ⟨i, -, hc⟩ := step_cases h
  · rfl
  · exact hc.imem_eq

theorem step_phase_eq (h : step s = .next t) : t.phase = .started := by
  obtain ⟨k, rfl⟩ | ⟨i, -, hc⟩ := step_cases h
  · rfl
  · exact hc.phase_eq

/-- A step keeps ip, goes to the valid target of a jump, or goes past the instruction, below IMEM_CAP;
the first is where the core stops. -/
theorem step_ip_cases (h : step s = .next t) :
    (t.ip = s.ip ∧ t.runState ≠ .running) ∨ ∃ i, fetch s = .ok i ∧
      (((i = .jmp t.ip ∨ i = .jz t.ip ∨ i = .jnz t.ip) ∧ t.ip.toNat < s.cfg.imemCap) ∨
        (i ≠ .stop ∧ s.ip.toNat + i.width < s.cfg.imemCap ∧ t.ip = BitVec.ofNat 16 (s.ip.toNat + i.width))) := by
  obtain ⟨k, rfl⟩ | ⟨i, hf, hc⟩ := step_cases h
  · exact .inl ⟨rfl, by simp⟩
  · obtain rfl | hip := hc.ip_cases
    · exact .inl ⟨rfl, by simp⟩
    · exact .inr ⟨i, hf, hip⟩

/-- A step leaves the slots alone and does not raise sp, or it pushes (PUSH and LOAD), or it writes the slot two below sp. -/
theorem step_stack_cases (h : step s = .next t) :
    (t.sp ≤ s.sp ∧ t.stk = s.stk) ∨
      (((∃ imm, fetch s = .ok (.push imm)) ∨ ∃ r, fetch s = .ok (.load r)) ∧
        s.sp + 2 < s.cfg.stackCap ∧ t.sp = s.sp + 1 ∧ ∃ v, t.stk = s.stk.set s.sp v) ∨
      (2 ≤ s.sp ∧ t.sp + 1 = s.sp ∧ ∃ v, t.stk = s.stk.set (s.sp - 2) v) := by
  obtain ⟨k, rfl⟩ | ⟨i, hf, hc⟩ := step_cases h
  · exact .inl ⟨Nat.le_refl _, rfl⟩
  · refine hc.stack_cases.imp_right (Or.imp_left fun ⟨hi, hpush⟩ => ⟨?_, hpush⟩)
    exact hi.imp (fun ⟨imm, e⟩ => ⟨imm, e ▸ hf⟩) fun ⟨r, e⟩ => ⟨r, e ▸ hf⟩

theorem step_stk_length (h : step s = .next t) : t.stk.length = s.stk.length := by
  obtain ⟨-, e⟩ | ⟨-, -, -, v, e⟩ | ⟨-, -, v, e⟩ := step_stack_cases h <;> simp [e]

end

/-- The next sequential address, which a store of at most 65536 bytes does not wrap (00_scope.md R3). -/
theorem toNat_ofNat_of_lt_imemCap {c : Config} (hc : c.Valid) {n : Nat} (h : n < c.imemCap) : (BitVec.ofNat 16 n).toNat = n := by
  obtain ⟨-, hmax, -⟩ := hc
  exact (BitVec.toNat_ofNat n 16).trans (Nat.mod_eq_of_lt (by omega))

/-- A step from a state of the spec's type keeps ip below IMEM_CAP (10_state.md R12). -/
theorem step_ip_lt {s t : State} (hwf : s.WF) (h : step s = .next t) : t.ip.toNat < s.cfg.imemCap := by
  obtain ⟨hvalid, hip, -⟩ := hwf
  obtain ⟨e, -⟩ | ⟨i, -, ⟨-, ht⟩ | ⟨-, hlt, e⟩⟩ := step_ip_cases h
  · rwa [e]
  · exact ht
  · rwa [e, toNat_ofNat_of_lt_imemCap hvalid hlt]

/-- A step that raises sp leaves it at STACK_CAP - 2 or below (41_stack.md R47). -/
theorem step_sp_le {s t : State} (h : step s = .next t) : t.sp ≤ s.sp ∨ t.sp + 2 ≤ s.cfg.stackCap := by
  obtain ⟨hsp, -⟩ | ⟨-, hcap, hsp, -⟩ | ⟨-, hsp, -⟩ := step_stack_cases h
  · exact .inl hsp
  · right; omega
  · left; omega

/-- With sp below the headroom, no step writes a headroom slot (10_state.md R14). -/
theorem step_headroom_eq {s t : State} (hsp : s.sp + 2 ≤ s.cfg.stackCap) (h : step s = .next t) {j : Nat}
    (hj : s.cfg.stackCap ≤ j + 2) : t.stk[j]? = s.stk[j]? := by
  obtain ⟨-, e⟩ | ⟨-, hcap, -, v, e⟩ | ⟨htwo, -, v, e⟩ := step_stack_cases h
  · rw [e]
  · rw [e, List.getElem?_set_ne (by omega)]
  · rw [e, List.getElem?_set_ne (by omega)]

/-- Every step keeps the spec's state type (10_state.md R10). -/
theorem step_keeps_wf {s t : State} (hwf : s.WF) (h : step s = .next t) : t.WF := by
  have hip := step_ip_lt hwf h
  have hlen := step_stk_length h
  have hsp := step_sp_le h
  obtain ⟨hvalid, -, hcap, hstk, hmem, hcells⟩ := hwf
  unfold State.WF
  rw [step_cfg_eq h, step_imem_eq h]
  exact ⟨hvalid, hip, by omega, hlen.trans hstk, hmem, hcells⟩

end Sys2Proof.Machine
end

section
/-! PROOFS. The fields of the status words that a fault entry and STOP write (spec 10_state.md R17; 40_dispatch.md R44; 60_exceptions.md R69). -/

namespace Sys2Proof.Machine

/-- The codes are 1 to 7 (60_exceptions.md R67). -/
theorem FaultKind.code_range (k : FaultKind) : 1 ≤ k.code.toNat ∧ k.code.toNat ≤ 7 := by cases k <;> decide

/-- The status word of a fault as a number: address, code and STATE in their places. -/
theorem faultStatus_toNat (a : Addr) (k : FaultKind) :
    (faultStatus a k).toNat = a.toNat * 2 ^ 16 + k.code.toNat * 2 ^ 8 + 2 := by
  have ha := a.isLt
  have hk := k.code.isLt
  have hlow : (k.code.setWidth 32 <<< 8 ||| 2#32).toNat = k.code.toNat * 2 ^ 8 + 2 := by
    rw [BitVec.toNat_or, BitVec.toNat_shiftLeft, BitVec.toNat_setWidth, Nat.mod_eq_of_lt (by omega), Nat.shiftLeft_eq,
      Nat.mod_eq_of_lt (by omega), ← Nat.shiftLeft_eq, ← Nat.shiftLeft_add_eq_or_of_lt (by decide)]
    rfl
  rw [faultStatus, BitVec.or_assoc, BitVec.toNat_or, hlow, BitVec.toNat_shiftLeft, BitVec.toNat_setWidth,
    Nat.mod_eq_of_lt (by omega), Nat.shiftLeft_eq, Nat.mod_eq_of_lt (by omega), ← Nat.shiftLeft_eq,
    ← Nat.shiftLeft_add_eq_or_of_lt (by omega), Nat.shiftLeft_eq, Nat.add_assoc]

@[simp] theorem reservedLow_faultStatus (a : Addr) (k : FaultKind) : reservedLow (faultStatus a k) = 0 := by
  apply BitVec.eq_of_toNat_eq
  rw [reservedLow, BitVec.extractLsb'_toNat, faultStatus_toNat, Nat.shiftRight_eq_div_pow]
  change _ = 0
  omega

@[simp] theorem reservedHigh_faultStatus (a : Addr) (k : FaultKind) : reservedHigh (faultStatus a k) = 0 := by
  have hk := k.code.isLt
  apply BitVec.eq_of_toNat_eq
  rw [reservedHigh, BitVec.extractLsb'_toNat, faultStatus_toNat, Nat.shiftRight_eq_div_pow]
  change _ = 0
  omega

@[simp] theorem fcodeField_faultStatus (a : Addr) (k : FaultKind) : fcodeField (faultStatus a k) = k.code := by
  have hk := k.code.isLt
  apply BitVec.eq_of_toNat_eq
  rw [fcodeField, BitVec.extractLsb'_toNat, faultStatus_toNat, Nat.shiftRight_eq_div_pow]
  omega

@[simp] theorem fipField_faultStatus (a : Addr) (k : FaultKind) : fipField (faultStatus a k) = a := by
  have ha := a.isLt
  have hk := k.code.isLt
  apply BitVec.eq_of_toNat_eq
  rw [fipField, BitVec.extractLsb'_toNat, faultStatus_toNat, Nat.shiftRight_eq_div_pow]
  omega

/-- `halt` keeps every field above STATE. -/
theorem extractLsb'_haltStatus (st : BitVec 32) {a n : Nat} (ha : 2 ≤ a) (hn : a + n ≤ 32) :
    (haltStatus st).extractLsb' a n = st.extractLsb' a n := by
  have hmask : ∀ j < 32, 2 ≤ j → (0xFFFFFFFC#32).getLsbD j = true ∧ (1#32).getLsbD j = false := by decide
  apply BitVec.eq_of_getLsbD_eq
  intro i hi
  obtain ⟨hkeep, hset⟩ := hmask (a + i) (by omega) (by omega)
  simp only [haltStatus, BitVec.getLsbD_extractLsb', BitVec.getLsbD_or, BitVec.getLsbD_and, hkeep, hset, Bool.and_true,
    Bool.or_false]

@[simp] theorem reservedLow_haltStatus (st : BitVec 32) : reservedLow (haltStatus st) = reservedLow st :=
  extractLsb'_haltStatus st (by omega) (by omega)

@[simp] theorem reservedHigh_haltStatus (st : BitVec 32) : reservedHigh (haltStatus st) = reservedHigh st :=
  extractLsb'_haltStatus st (by omega) (by omega)

@[simp] theorem fcodeField_haltStatus (st : BitVec 32) : fcodeField (haltStatus st) = fcodeField st :=
  extractLsb'_haltStatus st (by omega) (by omega)

@[simp] theorem fipField_haltStatus (st : BitVec 32) : fipField (haltStatus st) = fipField st :=
  extractLsb'_haltStatus st (by omega) (by omega)

/-- The state a fault enters has a status register as 10_state.md R17 says. -/
theorem State.raised_statusOk (k : FaultKind) (s : State) : (s.raised k).StatusOk := by
  have hcode := k.code_range
  simp [State.StatusOk, hcode]

/-- STOP from a running core leaves a status register as 10_state.md R17 says. -/
theorem State.halt_statusOk {s : State} (hok : s.StatusOk) (hrun : s.runState = .running) : s.halt.StatusOk := by
  obtain ⟨-, hlow, hhigh, hclear, -⟩ := hok
  obtain ⟨hcode, hfip⟩ := hclear (by simp [hrun])
  simp [State.StatusOk, hlow, hhigh, hcode, hfip]

/-- While the core is RUNNING the status register's condition speaks of status alone. -/
theorem State.statusOk_of_status_eq {s t : State} (hok : s.StatusOk) (hrun : s.runState = .running) (h : t.status = s.status) :
    t.StatusOk := by
  have hrs : t.runState = s.runState := congrArg runStateOf h
  obtain ⟨-, hlow, hhigh, hclear, -⟩ := hok
  simp [State.StatusOk, hrs, hrun, h, hlow, hhigh, hclear (by simp [hrun])]

/-- Every step leaves the status register as 10_state.md R17 says. -/
theorem step_keeps_statusOk {s t : State} (hok : s.StatusOk) (h : step s = .next t) : t.StatusOk := by
  obtain ⟨hrun, -⟩ := step_eq_next.1 h
  obtain ⟨k, rfl⟩ | ⟨i, -, hc⟩ := step_cases h
  · exact s.startStep.raised_statusOk k
  · obtain rfl | hst := hc.status_cases
    · exact State.halt_statusOk (s := s.startStep) hok hrun
    · exact State.statusOk_of_status_eq hok hrun hst

end Sys2Proof.Machine
end

section
/-! PROOFS. Canonical stores: what is read fixes what is listed (spec 20_memory.md R26; log 5). -/

namespace Sys2Proof.Machine

theorem Memory.read_cons_self (a : Nat) (v : Byte) (m : Memory) : Memory.read ((a, v) :: m) a = v := by
  simp [Memory.read]

/-- A canonical store reads as unlisted below its first cell. -/
theorem Memory.read_cons_of_lt {m : Memory} {a b : Nat} {v : Byte} (hm : Memory.wf ((b, v) :: m) = true) (h : a < b) :
    Memory.read ((b, v) :: m) a = Memory.unlisted := by
  obtain ⟨-, hgt, -⟩ := Memory.wf_cons.1 hm
  refine Memory.read_of_lt fun c hc => ?_
  rcases List.mem_cons.1 hc with rfl | hc
  · exact h
  · exact Nat.lt_trans h (hgt c hc)

/-- The tail of a canonical store reads as the whole does, but for the first cell's own address, where it is unlisted. -/
theorem Memory.read_tail {m : Memory} {a : Nat} {v : Byte} (hm : Memory.wf ((a, v) :: m) = true) (b : Nat) :
    Memory.read m b = if b = a then Memory.unlisted else Memory.read ((a, v) :: m) b := by
  obtain ⟨-, hgt, -⟩ := Memory.wf_cons.1 hm
  by_cases h : b = a
  · subst h
    simpa using Memory.read_of_lt hgt
  · simp [Memory.read, h]

/-- If two canonical stores read alike, the first cell of one is not below that of the other. -/
theorem Memory.not_lt_of_read_eq {m n : Memory} {a b : Nat} {v w : Byte} (hm : Memory.wf ((a, v) :: m) = true)
    (hn : Memory.wf ((b, w) :: n) = true) (h : Memory.read ((a, v) :: m) a = Memory.read ((b, w) :: n) a) : ¬a < b := by
  intro hab
  obtain ⟨hv, -⟩ := Memory.wf_cons.1 hm
  exact hv (by rwa [Memory.read_cons_self, Memory.read_cons_of_lt hn hab] at h)

/-- Two canonical stores that read alike at every address list the same cells: their first cells agree, and their tails read alike. -/
theorem Memory.eq_of_read_eq {m n : Memory} (hm : Memory.wf m = true) (hn : Memory.wf n = true)
    (h : ∀ a, Memory.read m a = Memory.read n a) : m = n := by
  induction m generalizing n with
  | nil =>
    cases n with
    | nil => rfl
    | cons d n =>
      obtain ⟨b, w⟩ := d
      obtain ⟨hw, -⟩ := Memory.wf_cons.1 hn
      have hb : Memory.unlisted = w := (h b).trans (Memory.read_cons_self b w n)
      exact absurd hb.symm hw
  | cons c m ih =>
    obtain ⟨a, v⟩ := c
    obtain ⟨hv, -, hm'⟩ := Memory.wf_cons.1 hm
    cases n with
    | nil =>
      have ha : v = Memory.unlisted := (Memory.read_cons_self a v m).symm.trans (h a)
      exact absurd ha hv
    | cons d n =>
      obtain ⟨b, w⟩ := d
      have hle := Memory.not_lt_of_read_eq hm hn (h a)
      have hge := Memory.not_lt_of_read_eq hn hm (h b).symm
      obtain rfl : a = b := by omega
      obtain rfl : v = w := by
        rw [← Memory.read_cons_self a v m, h a, Memory.read_cons_self]
      obtain ⟨-, -, hn'⟩ := Memory.wf_cons.1 hn
      have htail : ∀ e, Memory.read m e = Memory.read n e := fun e => by
        rw [Memory.read_tail hm, Memory.read_tail hn, h e]
      rw [ih hm' hn' htail]

end Sys2Proof.Machine
end

section
/-! PROOFS. Outcomes that agree: related inputs go through the same pseudocode to related ends. -/

namespace Sys2Proof.Machine

/-- Two computations agree: both succeed with related results, or both end early in the same way. -/
def AgreeExcept {α β : Type} (rel : α → β → Prop) : Except Abort α → Except Abort β → Prop
  | .ok a, .ok b => rel a b
  | .error e, .error f => e = f
  | _, _ => False

@[simp] theorem agreeExcept_ok {α β : Type} {rel : α → β → Prop} {a : α} {b : β} :
    AgreeExcept rel (.ok a) (.ok b) ↔ rel a b := Iff.rfl

@[simp] theorem agreeExcept_error {α β : Type} {rel : α → β → Prop} {e f : Abort} :
    AgreeExcept rel (.error e : Except Abort α) (.error f : Except Abort β) ↔ e = f := Iff.rfl

theorem agreeExcept_refl {α : Type} (x : Except Abort α) : AgreeExcept Eq x x := by cases x <;> rfl

/-- Computations in two parts agree when both parts do. -/
theorem AgreeExcept.bind {α β γ δ : Type} {rel : α → β → Prop} {rel' : γ → δ → Prop} {x : Except Abort α}
    {y : Except Abort β} {f : α → Except Abort γ} {g : β → Except Abort δ} (h : AgreeExcept rel x y)
    (hfg : ∀ a b, rel a b → AgreeExcept rel' (f a) (g b)) : AgreeExcept rel' (x >>= f) (y >>= g) := by
  cases x <;> cases y
  case error.error e f => exact h
  case ok.ok a b => exact hfg a b h
  all_goals exact h.elim

/-- Computations that agree commit to outcomes that agree, if fault entry keeps the relation. -/
theorem AgreeExcept.commit {rel : State → State → Prop} {s t : State} {x y : Except Abort State}
    (hraise : ∀ k, rel (s.raised k) (t.raised k)) (h : AgreeExcept rel x y) : Agree rel (s.commit x) (t.commit y) := by
  match x, y, h with
  | .ok _, .ok _, h => exact h
  | .error (.raise k), .error _, rfl => exact hraise k
  | .error (.absent _), .error _, rfl => rfl

end Sys2Proof.Machine
end

section
/-! PROOFS. States that differ in dead slots and in the trace alone: every operation keeps them so (spec 10_state.md R15). -/

namespace Sys2Proof.Machine

section
variable {s t : State} (h : s.SameLive t)
include h

/-- Whatever is read off a state is read off the other one's slots and trace, and the rest of this one. -/
theorem State.SameLive.map_eq {α : Type} (f : State → α) : f t = f { s with stk := t.stk, trace := t.trace } :=
  congrArg f h.1

theorem State.SameLive.cfg_eq : t.cfg = s.cfg := h.map_eq State.cfg
theorem State.SameLive.ip_eq : t.ip = s.ip := h.map_eq State.ip
theorem State.SameLive.sp_eq : t.sp = s.sp := h.map_eq State.sp
theorem State.SameLive.x_eq : t.x = s.x := h.map_eq State.x
theorem State.SameLive.imem_eq : t.imem = s.imem := h.map_eq State.imem
theorem State.SameLive.status_eq : t.status = s.status := h.map_eq State.status
theorem State.SameLive.phase_eq : t.phase = s.phase := h.map_eq State.phase
theorem State.SameLive.out_eq : t.out = s.out := h.map_eq State.out
theorem State.SameLive.runState_eq : t.runState = s.runState := h.map_eq State.runState
theorem State.SameLive.runEnd_eq : t.runEnd = s.runEnd := h.map_eq State.runEnd
theorem State.SameLive.fetch_eq : fetch t = fetch s := h.map_eq fetch
theorem State.SameLive.reg_eq (r : Fin 16) : t.reg r = s.reg r := h.map_eq (State.reg · r)

theorem State.SameLive.length_eq : t.stk.length = s.stk.length := h.2.1

theorem State.SameLive.slot_eq {i : Nat} (hi : i < s.sp) : t.stk[i]? = s.stk[i]? := h.2.2 i hi

theorem State.SameLive.live_eq : t.live = s.live := by
  refine List.ext_getElem? fun i => ?_
  simp only [State.live, h.sp_eq, List.getElem?_take]
  split
  · exact h.slot_eq ‹_›
  · rfl

theorem State.SameLive.observe_eq : t.observe = s.observe := by
  simp only [State.observe, h.runState_eq, h.out_eq, h.ip_eq, h.sp_eq, h.x_eq, h.live_eq, h.status_eq]

theorem State.SameLive.raised (k : FaultKind) : (s.raised k).SameLive (t.raised k) :=
  ⟨h.map_eq (State.raised k), h.2⟩

theorem State.SameLive.halt : s.halt.SameLive t.halt := ⟨h.map_eq State.halt, h.2⟩

theorem State.SameLive.setIp (a : Addr) : (s.setIp a).SameLive (t.setIp a) := ⟨h.map_eq (State.setIp a), h.2⟩

theorem State.SameLive.setReg (r : Fin 16) (v : Word) : (s.setReg r v).SameLive (t.setReg r v) :=
  ⟨h.map_eq (State.setReg r v), h.2⟩

theorem State.SameLive.emit (v : Word) : (s.emit v).SameLive (t.emit v) := ⟨h.map_eq (State.emit v), h.2⟩

theorem State.SameLive.dropped : s.dropped.SameLive t.dropped :=
  ⟨h.map_eq State.dropped, h.length_eq, fun _ hi => h.slot_eq (Nat.lt_of_lt_of_le hi (Nat.sub_le ..))⟩

/-- A push makes the slot at sp live, and writes it alike. -/
theorem State.SameLive.pushed (v : Word) : (s.pushed v).SameLive (t.pushed v) := by
  refine ⟨?_, by simp [h.length_eq], fun i hi => ?_⟩
  · exact State.ext_fields h.cfg_eq h.ip_eq (congrArg (· + 1) h.sp_eq) h.x_eq rfl h.imem_eq h.status_eq h.phase_eq h.out_eq rfl
  · simp only [State.pushed_stk, h.sp_eq, List.getElem?_set, h.length_eq]
    split
    · rfl
    · refine h.slot_eq ?_
      simp only [State.pushed_sp] at hi
      omega

theorem State.SameLive.startStep : s.startStep.SameLive t.startStep :=
  ⟨State.ext_fields h.cfg_eq h.ip_eq h.sp_eq h.x_eq rfl h.imem_eq h.status_eq rfl h.out_eq rfl, h.2⟩

/-! ### The primitives and the frames -/

theorem State.SameLive.advance_agree (w : Nat) : AgreeExcept State.SameLive (advance w s) (advance w t) := by
  simp only [advance, h.cfg_eq, h.ip_eq]
  split
  · rfl
  · exact h.setIp _

theorem State.SameLive.jump_agree (a : Addr) : AgreeExcept State.SameLive (jump a s) (jump a t) := by
  simp only [jump, h.cfg_eq]
  split
  · rfl
  · exact h.setIp a

theorem State.SameLive.push_agree (v : Word) : AgreeExcept State.SameLive (push v s) (push v t) := by
  simp only [push, h.cfg_eq, h.sp_eq, h.length_eq]
  split
  · rfl
  · split
    · exact h.pushed v
    · rfl

/-- A pop reads the top slot, which is live, and gives the same word. -/
theorem State.SameLive.pop_agree :
    AgreeExcept (fun a b => a.1 = b.1 ∧ a.2.SameLive b.2) (pop s) (pop t) := by
  simp only [pop, h.sp_eq]
  by_cases hsp : s.sp = 0
  · simp [hsp]
  · have htop : t.stk[s.sp - 1]? = s.stk[s.sp - 1]? := h.slot_eq (by omega)
    rw [if_neg hsp, if_neg hsp, htop]
    cases s.stk[s.sp - 1]? with
    | none => rfl
    | some v => exact ⟨rfl, h.dropped⟩

theorem State.SameLive.jumpIf_agree (taken : Word → Bool) (a : Addr) :
    AgreeExcept State.SameLive (jumpIf taken a s) (jumpIf taken a t) := by
  refine h.pop_agree.bind ?_
  rintro ⟨v, u⟩ ⟨_, u'⟩ ⟨rfl, hu⟩
  change AgreeExcept _ (if taken v then _ else _) (if taken v then _ else _)
  split
  · exact hu.jump_agree a
  · exact hu.advance_agree 3

theorem State.SameLive.aluFrame_agree (op : Word → Word → Except Abort Word) :
    AgreeExcept State.SameLive (aluFrame op s) (aluFrame op t) := by
  refine h.pop_agree.bind ?_
  rintro ⟨s1, u⟩ ⟨_, u'⟩ ⟨rfl, hu⟩
  refine hu.pop_agree.bind ?_
  rintro ⟨s2, w⟩ ⟨_, w'⟩ ⟨rfl, hw⟩
  refine (agreeExcept_refl (op s2 s1)).bind ?_
  rintro v _ rfl
  exact (hw.push_agree v).bind fun _ _ hp => hp.advance_agree 1

/-! ### The instructions and the step -/

theorem State.SameLive.commit_agree {x y : Except Abort State} (hxy : AgreeExcept State.SameLive x y) :
    Agree State.SameLive (s.commit x) (t.commit y) := hxy.commit h.raised

theorem State.SameLive.execLoad_agree (r : Byte) : Agree State.SameLive (execLoad r s) (execLoad r t) := by
  refine h.commit_agree ((agreeExcept_refl (regIndex r)).bind ?_)
  rintro k _ rfl
  rw [h.reg_eq k]
  exact (h.push_agree _).bind fun _ _ hp => hp.advance_agree 2

theorem State.SameLive.execStore_agree (r : Byte) : Agree State.SameLive (execStore r s) (execStore r t) := by
  refine h.commit_agree ((agreeExcept_refl (regIndex r)).bind ?_)
  rintro k _ rfl
  refine h.pop_agree.bind ?_
  rintro ⟨v, u⟩ ⟨_, u'⟩ ⟨rfl, hu⟩
  exact (hu.setReg k v).advance_agree 2

theorem State.SameLive.execPrint_agree : Agree State.SameLive (execPrint s) (execPrint t) := by
  refine h.commit_agree (h.pop_agree.bind ?_)
  rintro ⟨v, u⟩ ⟨_, u'⟩ ⟨rfl, hu⟩
  exact (hu.emit v).advance_agree 1

theorem State.SameLive.exec_agree (i : Instr) : Agree State.SameLive (exec i s) (exec i t) := by
  cases i with
  | nop => exact h.commit_agree (h.advance_agree 1)
  | push imm => exact h.commit_agree ((h.push_agree imm).bind fun _ _ hp => hp.advance_agree 5)
  | pop => exact h.commit_agree (h.pop_agree.bind fun _ _ hp => hp.2.advance_agree 1)
  | load r => exact h.execLoad_agree r
  | store r => exact h.execStore_agree r
  | jmp a => exact h.commit_agree (h.jump_agree a)
  | jz a | jnz a => exact h.commit_agree (h.jumpIf_agree _ a)
  | add | sub | mul | div => exact h.commit_agree (h.aluFrame_agree _)
  | print => exact h.execPrint_agree
  | stop => exact h.halt

theorem State.SameLive.step_agree : Agree State.SameLive (step s) (step t) := by
  simp only [step, h.runState_eq, h.fetch_eq]
  cases s.runState with
  | running =>
    cases fetch s with
    | ok i => exact h.startStep.exec_agree i
    | error e => exact h.startStep.commit_agree (x := .error e) (y := .error e) rfl
  | halted | faulted | reserved => rfl

end

/-- Runs from two such states report the same end and show the same observation. -/
theorem State.SameLive.run_eq {s t : State} (h : s.SameLive t) (n : Nat) :
    (s.run n).1 = (t.run n).1 ∧ (s.run n).2.observe = (t.run n).2.observe := by
  induction n generalizing s t with
  | zero => exact ⟨h.runEnd_eq.symm, h.observe_eq.symm⟩
  | succ n ih =>
    have hstep := h.step_agree
    simp only [State.run]
    match step s, step t, hstep with
    | .next _, .next _, hn => exact ih hn
    | .fault _, .fault _, _ => exact ⟨rfl, h.observe_eq.symm⟩
    | .refused _, .refused _, _ => exact ⟨h.runEnd_eq.symm, h.observe_eq.symm⟩

end Sys2Proof.Machine
end

section
/-! PROOFS. The statements of 10_state.md. -/

namespace Sys2Proof.Machine

/-- Reset meets the invariant in every configuration the spec allows (10_state.md R21). -/
theorem resetWith_inv {c : Config} (hc : c.Valid) : (State.resetWith c).Inv := by
  have ⟨himem, _, hstk⟩ := hc
  have hwf : (State.resetWith c).WF := ⟨hc, himem, Nat.zero_le _, List.length_replicate, rfl, nofun⟩
  have hslot : ∀ j, j < c.stackCap → (State.resetWith c).stk[j]? = some 0 := fun j hj => by
    simp [State.resetWith, hj]
  have hzero : reservedLow 0 = 0 ∧ reservedHigh 0 = 0 ∧ fcodeField 0 = 0 ∧ fipField 0 = 0 := by decide
  obtain ⟨hlow, hhigh, hclear⟩ := hzero
  have hstatus : (State.resetWith c).StatusOk :=
    ⟨nofun, hlow, hhigh, fun _ => hclear, nofun⟩
  exact ⟨hwf, by change 0 + 2 ≤ c.stackCap; omega, hslot _ (by change c.stackCap - 2 < _; omega),
    hslot _ (by change c.stackCap - 1 < _; omega), hstatus, fun _ => ⟨rfl, rfl, rfl, rfl, rfl, rfl, rfl⟩⟩

/-- Settles O13: every field is zero at reset, and the reference configuration is valid. -/
theorem resetMeetsInvariant : Obligations.ResetMeetsInvariant :=
  ⟨fun _ hc => resetWith_inv hc, resetWith_inv (by decide)⟩

/-- Settles O15: each part of the state type is kept, whatever the step does. -/
theorem stateTypeKeptByEveryStep : Obligations.StateTypeKeptByEveryStep := fun _ _ => step_keeps_wf

/-- Settles O14: the parts of the invariant one by one; after a step the phase is STARTED, so nothing is left to show for LOADABLE. -/
theorem invariantKeptByEveryStep : Obligations.InvariantKeptByEveryStep := by
  unfold Obligations.InvariantKeptByEveryStep
  rintro s t ⟨hwf, hsp, hlow, hhigh, hstatus, -⟩ h
  have hsp' := step_sp_le h
  refine ⟨step_keeps_wf hwf h, ?_, ?_, ?_, step_keeps_statusOk hstatus h, ?_⟩
  · rw [step_cfg_eq h]
    omega
  · rw [step_cfg_eq h, step_headroom_eq hsp h (by omega), hlow]
  · rw [step_cfg_eq h, step_headroom_eq hsp h (by omega), hhigh]
  · intro hphase
    rw [step_phase_eq h] at hphase
    cases hphase

/-- Settles O18: the next sequential address of a completing instruction is in the store, so it does not wrap. -/
theorem ipChangesInThreeWays : Obligations.IpChangesInThreeWays := by
  unfold Obligations.IpChangesInThreeWays
  rintro s t ⟨hvalid, -⟩ h
  refine (step_ip_cases h).imp_right fun ⟨i, hf, hi⟩ => ⟨i, hf, ?_⟩
  obtain hjump | ⟨hstop, hlt, e⟩ := hi
  · exact .inr hjump
  · exact .inl ⟨by rw [e, toNat_ofNat_of_lt_imemCap hvalid hlt], hstop⟩

/-- Settles O19: of the three things a step does to the stack only the push raises sp, and it needs sp < STACK_CAP - 2. -/
theorem headroomIsNeverUsed : Obligations.HeadroomIsNeverUsed := by
  unfold Obligations.HeadroomIsNeverUsed
  intro s t hsp h
  have hsp' := step_sp_le h
  refine ⟨by rw [step_cfg_eq h]; omega, fun hrise => ?_, fun j hj => step_headroom_eq hsp h hj⟩
  obtain ⟨hle, -⟩ | ⟨hi, -, hup, -⟩ | ⟨-, hdown, -⟩ := step_stack_cases h
  · omega
  · exact ⟨hup, hi⟩
  · omega

/-- Settles O21: of the instructions only STORE's completion touches the register file. -/
theorem onlyStoreWritesRegisters : Obligations.OnlyStoreWritesRegisters := by
  unfold Obligations.OnlyStoreWritesRegisters
  intro s t h
  obtain ⟨k, rfl⟩ | ⟨i, hf, hc⟩ := step_cases h
  · exact .inl rfl
  · refine hc.x_cases.imp_right ?_
    rintro ⟨r, ⟨k, hk⟩, v, rfl, rfl, hsp, hv, hx⟩
    refine ⟨r, hf, hk, hsp, ?_, fun j hj => ?_⟩
    · simpa [State.reg, hx] using hv
    · simp [State.reg, hx, Vector.getElem_set_ne, Ne.symm hj]

/-- Settles O49: no operation reads a dead slot, so related states go through the same pseudocode. -/
theorem deadSlotsInfluenceNothing : Obligations.DeadSlotsInfluenceNothing :=
  ⟨fun _ _ h => h.step_agree, fun n _ _ h => h.run_eq n⟩

/-- Settles O59, by induction on the listed cells. -/
theorem storesReadingAlikeAreEqual : Obligations.StoresReadingAlikeAreEqual := fun _ _ => Memory.eq_of_read_eq

/-- Settles O58: what the primitives do when they succeed, and the bound from the state type. -/
theorem stackGrowsUpwardFromSlotZero : Obligations.StackGrowsUpwardFromSlotZero := by
  unfold Obligations.StackGrowsUpwardFromSlotZero
  refine ⟨?_, ?_, ?_, ?_⟩
  · intro s t v h
    obtain ⟨-, hlen, rfl⟩ := push_eq_ok.1 h
    refine ⟨rfl, ?_, fun j hj => ?_, rfl⟩
    · simp [hlen]
    · simp [List.getElem?_set_ne hj.symm]
  · intro s t v h
    obtain ⟨hsp, hv, rfl⟩ := pop_eq_ok.1 h
    exact ⟨Nat.sub_add_cancel hsp, hv, rfl⟩
  · rintro s ⟨-, -, hcap, hstk, -⟩
    have hlen : s.sp ≤ s.stk.length := by omega
    refine ⟨by simp [State.live, hlen], fun i hi => ?_⟩
    have hi' : i < s.stk.length := by omega
    simp [State.live, State.slot, hi, hi']
  · intro s t hwf h
    obtain ⟨-, -, hcap, -⟩ := step_keeps_wf hwf h
    exact hcap

end Sys2Proof.Machine
end

section
/-! PROOFS. What is kept along a run, and the value of a little-endian read (spec 00_scope.md R7; 70_reset_and_hazards.md R79, R80). -/

namespace Sys2Proof.Machine

/-- Whatever every step keeps, a run keeps, however it ends. -/
theorem run_keeps {p : State → Prop} (hstep : ∀ s t, p s → step s = .next t → p t) (n : Nat) {s : State} (hs : p s) :
    p (s.run n).2 := by
  induction n generalizing s with
  | zero => exact hs
  | succ n ih =>
    simp only [State.run]
    split
    · exact ih (hstep s _ hs ‹_›)
    · exact hs
    · exact hs

theorem run_imem_eq (n : Nat) (s : State) : (s.run n).2.imem = s.imem :=
  run_keeps (p := fun u => u.imem = s.imem) (fun _ _ hu h => (step_imem_eq h).trans hu) n rfl

theorem State.load_of_started {s : State} (h : s.phase = .started) (bytes : List Byte) : s.load bytes = (.refused, s) := by
  simp [State.load, h]

/-- The sum that defines a little-endian read: the byte `i` places up counts `2 ^ (8 * i)`-fold (20_memory.md R23). -/
theorem Memory.memRead_eq_sum (m : Memory) (a n : Nat) :
    Memory.memRead m a n = ∑ i ∈ Finset.range n, (Memory.read m (a + i)).toNat <<< (8 * i) := by
  induction n generalizing a with
  | zero => rfl
  | succ n ih =>
    have hshift (i : Nat) : (Memory.read m (a + (i + 1))).toNat <<< (8 * (i + 1)) =
        256 * (Memory.read m (a + 1 + i)).toNat <<< (8 * i) := by
      rw [Nat.mul_add, Nat.shiftLeft_add, Nat.shiftLeft_eq _ (8 * 1), Nat.mul_comm, Nat.add_comm i, ← Nat.add_assoc]
    calc Memory.memRead m a (n + 1)
        = (Memory.read m a).toNat + 256 * Memory.memRead m (a + 1) n := rfl
      _ = (Memory.read m a).toNat + ∑ i ∈ Finset.range n, (Memory.read m (a + (i + 1))).toNat <<< (8 * (i + 1)) := by
        simp only [hshift, ← Finset.mul_sum, ih]
      _ = ∑ i ∈ Finset.range (n + 1), (Memory.read m (a + i)).toNat <<< (8 * i) := by
        rw [Finset.sum_range_succ', Nat.add_comm]
        rfl

end Sys2Proof.Machine
end

section
/-! PROOFS. The statements of 20_memory.md. -/

namespace Sys2Proof.Machine

/-- Settles O20: no completion and no fault entry touches the store, so no run does, and the phase a step leaves refuses every load. -/
theorem instructionStoreNeverWritten : Obligations.InstructionStoreNeverWritten := by
  unfold Obligations.InstructionStoreNeverWritten
  refine ⟨fun s t h => ?_, run_imem_eq, fun s bytes h => State.load_of_started h bytes⟩
  have himem := step_imem_eq h
  exact ⟨fun a => by rw [himem], himem, step_phase_eq h⟩

/-- Settles O2: the decoder puts the bytes together low byte first, and a fetched operand is the MemRead after the opcode,
the sum of the shifted bytes. -/
theorem operandsAreLittleEndian : Obligations.OperandsAreLittleEndian := by
  unfold Obligations.OperandsAreLittleEndian
  refine ⟨fun b0 b1 b2 b3 rest => ⟨imm32 b0 b1 b2 b3, rfl, ?_⟩, fun lo hi rest => ⟨target16 lo hi, ?_, rfl, rfl, rfl⟩,
    fun s imm h => ?_, fun s t h => ?_⟩
  · rw [imm32_toNat]
    simp only [Nat.shiftLeft_eq]
    omega
  · rw [target16_toNat, Nat.shiftLeft_eq, Nat.mul_comm]
  · have himm : imm.toNat = Memory.memRead s.imem (s.ip.toNat + 1) 4 :=
      (leNat_operandBytes_push imm).symm.trans (memRead_of_fetch h).symm
    simpa [Memory.memRead_eq_sum, Finset.sum_range_succ, Nat.add_assoc] using himm
  · have ht : t.toNat = Memory.memRead s.imem (s.ip.toNat + 1) 2 := by
      obtain h | h | h := h <;> exact (leNat_target t).symm.trans (memRead_of_fetch h).symm
    simpa [Memory.memRead_eq_sum, Finset.sum_range_succ, Nat.add_assoc] using ht

end Sys2Proof.Machine
end

section
/-! PROOFS. The encoder inverted, and what the decoder rejects (spec 30_encoding.md R29 to R35). -/

namespace Sys2Proof

@[simp] theorem Opcode.ofByte_byte (o : Opcode) : Opcode.ofByte o.byte = some o := by
  cases o <;> rfl

theorem Opcode.byte_toNat_le (o : Opcode) : o.byte.toNat ≤ 13 := by
  cases o <;> decide

/-- No byte above 13 is an opcode's, so none is read as one (30_encoding.md R34). -/
theorem Opcode.ofByte_eq_none {b : Byte} (h : 13 < b.toNat) : Opcode.ofByte b = none :=
  Option.eq_none_iff_forall_ne_some.2 fun o ho =>
    absurd o.byte_toNat_le (by rw [← Opcode.byte_of_ofByte ho]; omega)

/-- An instruction's operand bytes are read back, whatever follows them. -/
theorem operands_operandBytes_append (i : Instr) (rest : List Byte) :
    operands i.opcode (i.operandBytes ++ rest) = some (i, rest) := by
  cases i with
  | push imm => simp [Instr.opcode, Instr.operandBytes, operands, imm32_extract]
  | jmp t | jz t | jnz t => simp [Instr.opcode, Instr.operandBytes, operands, target16_extract]
  | load r | store r => rfl
  | nop | pop | add | sub | mul | div | print | stop => rfl

/-- The round trip: the opcode byte gives back the opcode, and the operand bytes the operands. -/
theorem decode_encode_append (i : Instr) (rest : List Byte) : decode (encode i ++ rest) = .ok (i, rest) :=
  decode_cons_eq_ok.2 ⟨i.opcode, i.opcode.ofByte_byte, operands_operandBytes_append i rest⟩

/-- Operands are missing exactly when fewer bytes are there than the opcode's width (30_encoding.md R35). -/
theorem operands_eq_none {o : Opcode} {bs : List Byte} : operands o bs = none ↔ bs.length + 1 < o.width := by
  cases o with
  | push => rcases bs with _ | ⟨_, _ | ⟨_, _ | ⟨_, _ | ⟨_, _⟩⟩⟩⟩ <;> simp [operands, Opcode.width]
  | jmp | jz | jnz => rcases bs with _ | ⟨_, _ | ⟨_, _⟩⟩ <;> simp [operands, Opcode.width]
  | load | store => cases bs <;> simp [operands, Opcode.width]
  | nop | pop | add | sub | mul | div | print | stop => simp [operands, Opcode.width]

theorem decode_of_illegal {b : Byte} (h : 13 < b.toNat) (bs : List Byte) : decode (b :: bs) = .error (.illegalOpcode b) := by
  simp [decode, Opcode.ofByte_eq_none h]

theorem decode_of_short {b : Byte} {bs : List Byte} {o : Opcode} (hb : Opcode.ofByte b = some o)
    (h : bs.length + 1 < o.width) : decode (b :: bs) = .error (.truncated o) := by
  simp [decode, hb, operands_eq_none.2 h]

/-- A legal opcode with bytes enough is read as an instruction of that opcode, which takes as many bytes as its width says. -/
theorem decode_of_long {b : Byte} {bs : List Byte} {o : Opcode} (hb : Opcode.ofByte b = some o)
    (h : o.width ≤ bs.length + 1) : ∃ i, i.opcode = o ∧ decode (b :: bs) = .ok (i, bs.drop (o.width - 1)) := by
  have hsome : operands o bs ≠ none := fun hnone => absurd (operands_eq_none.1 hnone) (by omega)
  obtain ⟨⟨i, rest⟩, ho⟩ := Option.ne_none_iff_exists'.1 hsome
  obtain ⟨hop, hbs⟩ := operands_eq_some ho
  have hlen : o.width - 1 = i.operandBytes.length := by
    rw [← hop]
    exact congrArg (· - 1) i.width_eq_operandBytes_length
  have hrest : bs.drop (o.width - 1) = rest := by rw [hlen, hbs, List.drop_left]
  exact ⟨i, hop, decode_cons_eq_ok.2 ⟨o, hb, by rw [hrest, ho]⟩⟩

end Sys2Proof
end

section
/-! PROOFS. The mnemonic table and assembly lines (spec 30_encoding.md R36, R37). -/

namespace Sys2Proof

@[simp] theorem Opcode.ofMnemonic_mnemonic (o : Opcode) : Opcode.ofMnemonic o.mnemonic = some o := by
  cases o <;> decide

theorem Opcode.mnemonic_of_ofMnemonic {m : String} {o : Opcode} (h : Opcode.ofMnemonic m = some o) : o.mnemonic = m :=
  beq_iff_eq.1 (List.find?_some (p := fun o : Opcode => o.mnemonic == m) h)

/-- The signed value of a word passes PUSH's range check and wraps back to the word (30_encoding.md R37). -/
theorem asmImm_dec_sint (w : Word) : asmImm (.dec (sint w)) = some w := by
  have hrange : -2 ^ 31 ≤ sint w ∧ sint w < 2 ^ 31 := ⟨BitVec.le_toInt w, BitVec.toInt_lt⟩
  rw [asmImm, if_pos hrange, wrap32, BitVec.ofInt_toInt]

theorem asmRegister_dec_toNat {r : Byte} (h : r.toNat < 16) : asmRegister (.dec r.toNat) = some r := by
  have hle : (r.toNat : Int) ≤ 15 := by omega
  simp [asmRegister, hle]

theorem asmTarget_dec_toNat (t : Addr) : asmTarget (.dec t.toNat) = some t := by
  have hle : (t.toNat : Int) ≤ 65535 := by omega
  simp [asmTarget, hle]

/-- The assembler takes no register number that the core would refuse (30_encoding.md R37). -/
theorem toNat_lt_of_asmRegister {n : AsmOperand} {r : Byte} (h : asmRegister n = some r) : r.toNat < 16 := by
  cases n with
  | hex n => cases h
  | dec n =>
    obtain ⟨hn, hr⟩ := Option.ite_none_right_eq_some.1 h
    cases hr
    rw [BitVec.toNat_ofInt]
    omega

/-- A well-formed instruction's own line, its mnemonic and its operand in decimal, assembles to it. -/
theorem assemble_asmOperand {i : Instr} (h : i.wellFormed = true) : assemble i.opcode.mnemonic i.asmOperand = some i := by
  simp only [assemble, Opcode.ofMnemonic_mnemonic]
  cases i with
  | push imm => simp [Instr.opcode, Instr.asmOperand, asmImm_dec_sint]
  | load r | store r => simp [Instr.opcode, Instr.asmOperand, asmRegister_dec_toNat (of_decide_eq_true h)]
  | jmp t | jz t | jnz t => simp [Instr.opcode, Instr.asmOperand, asmTarget_dec_toNat]
  | nop | pop | add | sub | mul | div | print | stop => rfl

/-- What a line can assemble to: a well-formed instruction of the opcode its mnemonic names. -/
theorem assemble_eq_some {m : String} {operand : Option AsmOperand} {i : Instr} (h : assemble m operand = some i) :
    i.wellFormed = true ∧ Opcode.ofMnemonic m = some i.opcode := by
  unfold assemble at h
  split at h
  case h_1 hm | h_4 hm | h_5 hm | h_6 hm =>
    obtain ⟨v, -, rfl⟩ := Option.map_eq_some_iff.1 h
    exact ⟨rfl, hm⟩
  case h_2 hm | h_3 hm =>
    obtain ⟨r, hr, rfl⟩ := Option.map_eq_some_iff.1 h
    exact ⟨decide_eq_true (toNat_lt_of_asmRegister hr), hm⟩
  case h_7 hm | h_8 hm | h_9 hm | h_10 hm | h_11 hm | h_12 hm | h_13 hm | h_14 hm =>
    cases h
    exact ⟨rfl, hm⟩
  case h_15 => cases h

end Sys2Proof
end

section
/-! PROOFS. The statements of 30_encoding.md. -/

namespace Sys2Proof.Machine

/-- Settles O3: the opcode map and the assembly of the operands both undo the encoder. -/
theorem decodeOfEncodeIsInstruction : Obligations.DecodeOfEncodeIsInstruction := decode_encode_append

/-- Settles O4: the opcode map is one to one, and the operands of each opcode are read from their own bytes alone. -/
theorem encodeOfDecodeIsBytes : Obligations.EncodeOfDecodeIsBytes := fun _ _ _ => eq_encode_append_of_decode

/-- Settles O5: a byte above 13 has no opcode, and an opcode's operands are missing exactly when fewer bytes are there than its width. -/
theorem decodeRejectsExactly : Obligations.DecodeRejectsExactly := by
  unfold Obligations.DecodeRejectsExactly
  refine fun b bs => ⟨fun h => decode_of_illegal h bs, fun o hb h => decode_of_short hb h, fun o hb h => ?_⟩
  obtain ⟨i, rfl, hd⟩ := decode_of_long hb h
  exact ⟨i, rfl, encode_length i, hd⟩

/-- Settles O7: the table is searched for the mnemonic, the operand's range checks undo the operand's text, and what passes them is well formed. -/
theorem assemblyLineRoundTrip : Obligations.AssemblyLineRoundTrip := by
  unfold Obligations.AssemblyLineRoundTrip
  refine ⟨Opcode.ofMnemonic_mnemonic, fun m hm => ?_, fun i h => assemble_asmOperand h, fun m operand i h => ?_⟩
  · exact Option.eq_none_iff_forall_ne_some.2 fun o ho => hm o (Opcode.mnemonic_of_ofMnemonic ho)
  · exact (assemble_eq_some h).imp_right Opcode.mnemonic_of_ofMnemonic

/-- Settles O1: the table read off, and the opcode map inverted both ways. -/
theorem opcodeMapIsExact : Obligations.OpcodeMapIsExact := by
  unfold Obligations.OpcodeMapIsExact
  refine ⟨by decide, fun o => by cases o <;> decide, Opcode.ofByte_byte, fun b o => Opcode.byte_of_ofByte,
    fun b => Opcode.ofByte_eq_none, fun b bs i rest h => ?_⟩
  exact List.head_eq_of_cons_eq (eq_encode_append_of_decode h)

/-- Settles O6: each line is the decoder evaluated on bytes written out from the tables. -/
theorem specBytesDecode : Obligations.SpecBytesDecode :=
  ⟨rfl, rfl, rfl, rfl, rfl, rfl, rfl, rfl, rfl, rfl, rfl, rfl⟩

end Sys2Proof.Machine
end

section
/-! PROOFS. The width of an opcode (spec 30_encoding.md R29). -/

namespace Sys2Proof

theorem Opcode.width_pos (o : Opcode) : 0 < o.width := by cases o <;> decide

theorem Opcode.width_le_maxWidth (o : Opcode) : o.width ≤ maxWidth := by cases o <;> decide

end Sys2Proof
end

section
/-! PROOFS. The fetch and the step, by what stands at ip: an instruction, an illegal opcode byte, or an opcode whose operands are not all in the store
(spec 40_dispatch.md R38 to R40, R45). -/

namespace Sys2Proof.Machine

/-- The fetch window is the beginning of the bytes from ip to the end of the store. -/
theorem State.bytesAtIp_eq_take (s : State) (n : Nat) :
    s.bytesAtIp n = (Memory.bytes s.imem s.ip.toNat (s.cfg.imemCap - s.ip.toNat)).take n :=
  (Memory.bytes_take ..).symm

/-- Inside the store the fetch window begins with the opcode byte; IMEM_CAP cuts the bytes after it. -/
theorem State.bytesAtIp_eq_cons {s : State} (h : s.ip.toNat < s.cfg.imemCap) :
    ∃ bs, s.bytesAtIp maxWidth = s.opByte :: bs ∧ bs.length + 1 = min maxWidth (s.cfg.imemCap - s.ip.toNat) := by
  obtain ⟨n, hn⟩ : ∃ n, min maxWidth (s.cfg.imemCap - s.ip.toNat) = n + 1 :=
    Nat.exists_eq_add_one.2 (Nat.lt_min.2 ⟨by decide, by omega⟩)
  refine ⟨Memory.bytes s.imem (s.ip.toNat + 1) n, ?_, by rw [Memory.length_bytes, hn]⟩
  rw [State.bytesAtIp, hn]
  rfl

/-- The fetch looks at no byte after the instruction, so reading on to the end of the store gives the same one. -/
theorem fetch_of_decode {s : State} {i : Instr} {rest : List Byte}
    (h : decode (Memory.bytes s.imem s.ip.toNat (s.cfg.imemCap - s.ip.toNat)) = .ok (i, rest)) : fetch s = .ok i := by
  have hw : (encode i).length ≤ maxWidth := (encode_length i).trans_le i.opcode.width_le_maxWidth
  have hb : s.bytesAtIp maxWidth = encode i ++ rest.take (maxWidth - (encode i).length) := by
    rw [State.bytesAtIp_eq_take, eq_encode_append_of_decode h, List.take_append, List.take_of_length_le hw]
  exact fetch_eq_ok.2 ⟨_, by rw [hb, decode_encode_append]⟩

theorem fetch_of_illegal {s : State} (hip : s.ip.toNat < s.cfg.imemCap) (h : 13 < s.opByte.toNat) :
    fetch s = .error (.raise .invalidOpcode) := by
  obtain ⟨bs, hb, -⟩ := State.bytesAtIp_eq_cons hip
  simp [fetch, hb, decode_of_illegal h]

theorem fetch_of_beyond {s : State} {o : Opcode} (hip : s.ip.toNat < s.cfg.imemCap) (ho : Opcode.ofByte s.opByte = some o)
    (h : s.cfg.imemCap < s.ip.toNat + o.width) : fetch s = .error (.raise .fetchOutOfBounds) := by
  obtain ⟨bs, hb, hlen⟩ := State.bytesAtIp_eq_cons hip
  have hshort : bs.length + 1 < o.width := by omega
  simp [fetch, hb, decode_of_short ho hshort]

theorem fetch_of_inside {s : State} {o : Opcode} (ho : Opcode.ofByte s.opByte = some o)
    (h : s.ip.toNat + o.width ≤ s.cfg.imemCap) : ∃ i, i.opcode = o ∧ fetch s = .ok i := by
  have hpos := o.width_pos
  have hw := o.width_le_maxWidth
  obtain ⟨bs, hb, hlen⟩ := State.bytesAtIp_eq_cons (s := s) (by omega)
  obtain ⟨i, hi, hd⟩ := decode_of_long ho (bs := bs) (by omega)
  exact ⟨i, hi, fetch_eq_ok.2 ⟨_, by rw [hb, hd]⟩⟩

/-- With ip inside the store the fetch answers an instruction or one of the core's own faults. -/
theorem fetch_cases {s : State} (hip : s.ip.toNat < s.cfg.imemCap) :
    (∃ i, fetch s = .ok i) ∨ ∃ k, fetch s = .error (.raise k) := by
  cases ho : Opcode.ofByte s.opByte with
  | none =>
    obtain ⟨bs, hb, -⟩ := State.bytesAtIp_eq_cons hip
    exact .inr ⟨.invalidOpcode, by simp [fetch, hb, decode, ho]⟩
  | some o =>
    by_cases h : s.ip.toNat + o.width ≤ s.cfg.imemCap
    · obtain ⟨i, -, hf⟩ := fetch_of_inside ho h
      exact .inl ⟨i, hf⟩
    · exact .inr ⟨_, fetch_of_beyond hip ho (by omega)⟩

/-- A step of a running core whose fetch raises is the fault entry. -/
theorem step_of_fetch_raise {s : State} {k : FaultKind} (h : s.runState = .running) (hf : fetch s = .error (.raise k)) :
    step s = .next (s.startStep.raised k) :=
  step_eq_next.2 ⟨h, .inr ⟨k, hf, rfl⟩⟩

end Sys2Proof.Machine
end

section
/-! PROOFS. Pseudocode that finds every slot it names: on a stack of the spec's shape it completes or raises one of the core's own faults
(spec 10_state.md R10, R13; 41_stack.md R47, R48). -/

namespace Sys2Proof.Machine

/-- The computation gives a result with the property, or raises; it does not miss a slot of the stack. -/
def EndsProperly {α : Type} (p : α → Prop) : Except Abort α → Prop
  | .ok a => p a
  | .error (.raise _) => True
  | .error (.absent _) => False

/-- The slots that sp and the capacity speak of are there. -/
def State.SlotsPresent (s : State) : Prop := s.sp ≤ s.stk.length ∧ s.cfg.stackCap ≤ s.stk.length

theorem State.WF.slotsPresent {s : State} (h : s.WF) : s.SlotsPresent := by
  obtain ⟨-, -, hsp, hlen, -⟩ := h
  exact ⟨hlen ▸ hsp, hlen.ge⟩

theorem EndsProperly.bind {α β : Type} {p : α → Prop} {q : β → Prop} {x : Except Abort α} {f : α → Except Abort β}
    (h : EndsProperly p x) (hf : ∀ a, p a → EndsProperly q (f a)) : EndsProperly q (x >>= f) := by
  match x, h with
  | .ok a, h => exact hf a h
  | .error (.raise _), _ => trivial

/-- What ends properly commits to a next state. -/
theorem EndsProperly.commit {p : State → Prop} {x : Except Abort State} (h : EndsProperly p x) (s : State) :
    ∃ t, s.commit x = .next t := by
  match x, h with
  | .ok t, _ => exact ⟨t, rfl⟩
  | .error (.raise k), _ => exact ⟨s.raised k, rfl⟩

theorem endsProperly_regIndex (r : Byte) : EndsProperly (fun _ => True) (regIndex r) := by
  unfold regIndex
  split <;> trivial

theorem endsProperly_aluDiv (s2 s1 : Word) : EndsProperly (fun _ => True) (aluDiv s2 s1) := by
  unfold aluDiv
  split <;> trivial

section
variable {s : State} (h : s.SlotsPresent)
include h

theorem State.SlotsPresent.advance_ends (w : Nat) : EndsProperly State.SlotsPresent (advance w s) := by
  unfold advance
  split
  · trivial
  · exact h

theorem State.SlotsPresent.jump_ends (a : Addr) : EndsProperly State.SlotsPresent (jump a s) := by
  unfold jump
  split
  · trivial
  · exact h

/-- A push that does not overflow names a slot below STACK_CAP. -/
theorem State.SlotsPresent.push_ends (v : Word) : EndsProperly State.SlotsPresent (push v s) := by
  obtain ⟨hsp, hcap⟩ := h
  unfold push
  split
  · trivial
  · have hlt : s.sp < s.stk.length := by omega
    rw [if_pos hlt]
    simp only [EndsProperly, State.SlotsPresent, State.pushed_sp, State.pushed_stk, State.pushed_cfg, List.length_set]
    omega

/-- A pop that does not underflow names a slot below sp. -/
theorem State.SlotsPresent.pop_ends : EndsProperly (fun a => a.2.SlotsPresent) (pop s) := by
  obtain ⟨hsp, hcap⟩ := h
  unfold pop
  split
  · trivial
  · rw [List.getElem?_eq_getElem (by omega)]
    exact ⟨(Nat.sub_le ..).trans hsp, hcap⟩

theorem State.SlotsPresent.jumpIf_ends (taken : Word → Bool) (a : Addr) : EndsProperly State.SlotsPresent (jumpIf taken a s) := by
  refine h.pop_ends.bind fun ⟨v, u⟩ hu => ?_
  change EndsProperly _ (if taken v then _ else _)
  split
  · exact State.SlotsPresent.jump_ends hu a
  · exact State.SlotsPresent.advance_ends hu 3

theorem State.SlotsPresent.aluFrame_ends {op : Word → Word → Except Abort Word} (hop : ∀ s2 s1, EndsProperly (fun _ => True) (op s2 s1)) :
    EndsProperly State.SlotsPresent (aluFrame op s) :=
  h.pop_ends.bind fun ⟨s1, _⟩ ht => (State.SlotsPresent.pop_ends ht).bind fun ⟨s2, _⟩ hu => (hop s2 s1).bind fun v _ =>
    (State.SlotsPresent.push_ends hu v).bind fun _ hw => hw.advance_ends 1

/-- On such a stack every instruction answers a next state. -/
theorem State.SlotsPresent.exec_next (i : Instr) : ∃ t, exec i s = .next t := by
  cases i with
  | nop => exact (h.advance_ends 1).commit s
  | push imm => exact ((h.push_ends imm).bind fun _ ht => ht.advance_ends 5).commit s
  | pop => exact (h.pop_ends.bind fun _ ht => ht.advance_ends 1).commit s
  | load r => exact ((endsProperly_regIndex r).bind fun k _ => (h.push_ends (s.reg k)).bind fun _ ht => ht.advance_ends 2).commit s
  | store r =>
    exact ((endsProperly_regIndex r).bind fun k _ => h.pop_ends.bind fun ⟨v, t⟩ ht =>
      State.SlotsPresent.advance_ends (s := t.setReg k v) ht 2).commit s
  | jmp a => exact (h.jump_ends a).commit s
  | jz a | jnz a => exact (h.jumpIf_ends _ a).commit s
  | add | sub | mul =>
    refine (h.aluFrame_ends ?_).commit s
    exact fun _ _ => trivial
  | div => exact (h.aluFrame_ends endsProperly_aluDiv).commit s
  | print => exact (h.pop_ends.bind fun ⟨v, t⟩ ht => State.SlotsPresent.advance_ends (s := t.emit v) ht 1).commit s
  | stop => exact ⟨s.halt, rfl⟩

end

end Sys2Proof.Machine
end

section
/-! PROOFS. What NOP, JMP and STOP do, and what a step does to status (spec 40_dispatch.md R43, R44, R46; 43_control.md R55). -/

namespace Sys2Proof.Machine

/-- `advance(w)` adds to ip as a 16-bit word. -/
theorem State.past_eq (w : Nat) (s : State) : s.past w = { s with ip := s.ip + BitVec.ofNat 16 w } := by
  simp [State.past, State.setIp, BitVec.ofNat_add]

theorem exec_nop_of_lt {s : State} (h : s.ip.toNat + 1 < s.cfg.imemCap) : exec .nop s = .next (s.past 1) :=
  commit_eq_next.2 (.inl (advance_eq_ok.2 ⟨h, rfl⟩))

theorem exec_nop_of_ge {s : State} (h : s.cfg.imemCap ≤ s.ip.toNat + 1) : exec .nop s = .next (s.raised .fetchOutOfBounds) :=
  commit_eq_next.2 (.inr ⟨_, advance_eq_error.2 ⟨rfl, h⟩, rfl⟩)

/-- Only STOP completes with another status. -/
theorem Completes.stop_or_status_eq {i : Instr} {s t : State} (h : Completes i s t) :
    (i = .stop ∧ t = s.halt) ∨ t.status = s.status := by
  cases h with
  | stop => exact .inl ⟨rfl, rfl⟩
  | _ => exact .inr rfl

/-- NOP, JMP and STOP complete by setting ip, or by halting. -/
theorem Completes.nop_jmp_stop_cases {i : Instr} {s t : State} (h : Completes i s t)
    (hi : i = .nop ∨ (∃ a, i = .jmp a) ∨ i = .stop) : (∃ a, t = s.setIp a) ∨ (i = .stop ∧ t = s.halt) := by
  cases h with
  | nop | jmp => exact .inl ⟨_, rfl⟩
  | stop => exact .inr ⟨rfl, rfl⟩
  | alu _ _ _ hop => rcases hop with ⟨rfl, -⟩ | ⟨rfl, -⟩ | ⟨rfl, -⟩ | ⟨rfl, -⟩ <;> simp at hi
  | _ => simp at hi

/-- A step takes a fault entry, completes STOP, or keeps status, and with it RUNNING. -/
theorem step_status_cases {s t : State} (h : step s = .next t) :
    (∃ k, t = s.startStep.raised k) ∨ (fetch s = .ok .stop ∧ t = s.startStep.halt) ∨
      (t.status = s.status ∧ t.runState = .running) := by
  obtain ⟨hrun, -⟩ := step_eq_next.1 h
  refine (step_cases h).imp_right ?_
  rintro ⟨i, hf, hc⟩
  obtain ⟨rfl, ht⟩ | hst := hc.stop_or_status_eq
  · exact .inl ⟨hf, ht⟩
  · exact .inr ⟨hst, (congrArg runStateOf hst).trans hrun⟩

end Sys2Proof.Machine
end

section
/-! PROOFS. A zero tail: NOPs up to the last address of the store, and FetchOutOfBounds there (spec 40_dispatch.md R41, R43). -/

namespace Sys2Proof.Machine

/-- Every byte from ip to the end of the store is zero. -/
def State.ZeroTail (s : State) : Prop :=
  ∀ a, s.ip.toNat ≤ a → a < s.cfg.imemCap → Memory.read s.imem a = 0

section
variable {s : State} (hwf : s.WF) (hrun : s.runState = .running) (hzero : s.ZeroTail)
include hwf hrun hzero

/-- On a zero tail a step is a NOP. -/
theorem step_of_zeroTail : step s = exec .nop s.startStep := by
  obtain ⟨-, hip, -⟩ := hwf
  have hop : Opcode.ofByte s.opByte = some .nop := by
    rw [State.opByte, hzero _ (Nat.le_refl _) hip]
    rfl
  obtain ⟨i, hi, hf⟩ := fetch_of_inside hop hip
  cases i <;> cases hi
  exact step_of_fetch hrun hf

/-- Before the last address that NOP goes to the rest of the tail. -/
theorem step_zeroTail_of_lt (h : s.ip.toNat + 1 < s.cfg.imemCap) :
    step s = .next (s.startStep.past 1) ∧ (s.startStep.past 1).ip.toNat = s.ip.toNat + 1 ∧ (s.startStep.past 1).ZeroTail := by
  have ⟨hvalid, _⟩ := hwf
  have hip : (s.startStep.past 1).ip.toNat = s.ip.toNat + 1 := toNat_ofNat_of_lt_imemCap hvalid h
  refine ⟨(step_of_zeroTail hwf hrun hzero).trans (exec_nop_of_lt h), hip, fun a ha => hzero a ?_⟩
  omega

/-- At the last address the step faults, and no budget takes the run further. -/
theorem run_zeroTail_of_last (h : s.ip.toNat + 1 = s.cfg.imemCap) (n : Nat) :
    s.run (n + 1) = (.faulted 2 s.ip, s.startStep.raised .fetchOutOfBounds) := by
  have hstep : step s = .next (s.startStep.raised .fetchOutOfBounds) :=
    (step_of_zeroTail hwf hrun hzero).trans (exec_nop_of_ge h.ge)
  have hend : (s.startStep.raised .fetchOutOfBounds).runEnd = .faulted 2 s.ip := by
    simp [State.runEnd, FaultKind.code]
  rw [run_succ_of_next hstep, run_of_not_running (by simp), hend]

end

/-- By induction on the budget: each step but the last is a NOP that leaves a shorter zero tail. -/
theorem run_of_zeroTail {s : State} (hwf : s.WF) (hrun : s.runState = .running) (hzero : s.ZeroTail) {n : Nat}
    (hn : s.cfg.imemCap - s.ip.toNat ≤ n) :
    (s.run n).1 = .faulted 2 (BitVec.ofNat 16 (s.cfg.imemCap - 1)) ∧ (s.run n).2.sp = s.sp ∧ (s.run n).2.x = s.x ∧
      (s.run n).2.stk = s.stk ∧ (s.run n).2.out = s.out := by
  induction n generalizing s with
  | zero =>
    obtain ⟨-, hip, -⟩ := hwf
    omega
  | succ n ih =>
    by_cases h : s.ip.toNat + 1 < s.cfg.imemCap
    · obtain ⟨hstep, hip', hzero'⟩ := step_zeroTail_of_lt hwf hrun hzero h
      rw [run_succ_of_next hstep]
      have hle : s.cfg.imemCap - (s.startStep.past 1).ip.toNat ≤ n := by omega
      exact ih (step_keeps_wf hwf hstep) hrun hzero' hle
    · have ⟨_, hip, _⟩ := hwf
      have hlast : s.ip.toNat + 1 = s.cfg.imemCap := by omega
      have haddr : BitVec.ofNat 16 (s.cfg.imemCap - 1) = s.ip := by simp [← hlast]
      rw [run_zeroTail_of_last hwf hrun hzero hlast, haddr]
      exact ⟨rfl, rfl, rfl, rfl, rfl⟩

end Sys2Proof.Machine
end

section
/-! PROOFS. The statements of 40_dispatch.md. -/

namespace Sys2Proof.Machine

/-- Settles O9: the opcode byte is in the fetch window wherever ip is in the store, and the decoder looks at it first. -/
theorem illegalOpcodeFaults : Obligations.IllegalOpcodeFaults :=
  fun _ hrun hip h => step_of_fetch_raise hrun (fetch_of_illegal hip h)

/-- Settles O10: IMEM_CAP cuts the fetch window short of the opcode's width. -/
theorem instructionBeyondStoreFaults : Obligations.InstructionBeyondStoreFaults :=
  fun _ _ hrun hip ho h => step_of_fetch_raise hrun (fetch_of_beyond hip ho h)

/-- Settles O16: the fetch finds the opcode byte, and the instruction finds the slots it names. -/
theorem runningStepAnswersNext : Obligations.RunningStepAnswersNext := by
  unfold Obligations.RunningStepAnswersNext
  intro s hwf hrun
  have ⟨_, hip, _⟩ := hwf
  obtain ⟨i, hf⟩ | ⟨k, hf⟩ := fetch_cases hip
  · rw [step_of_fetch hrun hf]
    exact State.SlotsPresent.exec_next (s := s.startStep) hwf.slotsPresent i
  · exact ⟨_, step_of_fetch_raise hrun hf⟩

/-- Settles O23: the three things a step does to status. -/
theorem onlyStopOrFaultEndsRunning : Obligations.OnlyStopOrFaultEndsRunning := by
  unfold Obligations.OnlyStopOrFaultEndsRunning
  intro s t h
  obtain ⟨k, rfl⟩ | ⟨hf, rfl⟩ | hsame := step_status_cases h
  · exact .inr (.inr ⟨by simp, k, rfl⟩)
  · exact .inr (.inl ⟨hf, by simp⟩)
  · exact .inl hsame

/-- Settles O24: a step that completes leaves the core RUNNING or HALTED, so one that leaves it FAULTED took a fault entry. -/
theorem faultingStepChangesOnlyStatus : Obligations.FaultingStepChangesOnlyStatus := by
  unfold Obligations.FaultingStepChangesOnlyStatus
  intro s t h hfault
  obtain hraised | ⟨-, rfl⟩ | ⟨-, hrun⟩ := step_status_cases h
  · exact hraised
  · simp at hfault
  · simp [hrun] at hfault

/-- Settles O40: a fault entry and `halt` write status alone, and the other completions ip alone. -/
theorem frameOfNopJmpStop : Obligations.FrameOfNopJmpStop := by
  unfold Obligations.FrameOfNopJmpStop
  intro s t i hi h
  obtain ⟨k, rfl⟩ | hc := exec_cases h
  · exact ⟨rfl, rfl, rfl, fun _ => rfl, rfl, rfl, rfl, rfl, .inr (.inl ⟨k, rfl⟩)⟩
  · obtain ⟨a, rfl⟩ | ⟨hstop, rfl⟩ := hc.nop_jmp_stop_cases hi
    · exact ⟨rfl, rfl, rfl, fun _ => rfl, rfl, rfl, rfl, rfl, .inl rfl⟩
    · have hkept := extractLsb'_haltStatus s.status (a := 2) (n := 30) (by omega) (by omega)
      exact ⟨rfl, rfl, rfl, fun _ => rfl, rfl, rfl, rfl, rfl, .inr (.inr ⟨hstop, hkept⟩)⟩

/-- Settles O57: NOPs up to the last address, by induction on the budget, and the fault there. -/
theorem zeroTailEndsInFetchFault : Obligations.ZeroTailEndsInFetchFault :=
  fun _ hwf hrun hzero _ hn => run_of_zeroTail hwf hrun hzero hn

/-- Settles O8: the decoder does not look past the instruction, so the fetch window of five bytes is enough. -/
theorem stepRunsDecodedInstruction : Obligations.StepRunsDecodedInstruction :=
  ⟨fun _ _ _ hrun h => step_of_fetch hrun (fetch_of_decode h), fun _ => rfl⟩

/-- Settles O12: a core that is not RUNNING refuses the step, so a run takes none, and reset clears status. -/
theorem noStepAfterHaltOrFault : Obligations.NoStepAfterHaltOrFault := by
  unfold Obligations.NoStepAfterHaltOrFault
  intro s h
  have hrun : s.runState ≠ .running := by rcases h with h | h <;> simp [h]
  exact ⟨⟨step_refused hrun, fun n => congrArg Prod.snd (run_of_not_running hrun n)⟩, rfl⟩

/-- Settles O26: NOP is `advance(1)`, on either side of its bounds check. -/
theorem nopAdvances : Obligations.NopAdvances := by
  unfold Obligations.NopAdvances
  refine fun s _ => ⟨fun h => ?_, fun h => exec_nop_of_ge h.ge⟩
  rw [exec_nop_of_lt h, State.past_eq]
  rfl

/-- Settles O27: STOP writes the STATE field of status, whatever the other fields hold. -/
theorem stopHalts : Obligations.StopHalts := by
  unfold Obligations.StopHalts
  intro s
  exact ⟨haltStatus s.status, rfl, stateField_haltStatus _, reservedLow_haltStatus _, reservedHigh_haltStatus _,
    fcodeField_haltStatus _, fipField_haltStatus _, fun h => by rw [h]; decide⟩

end Sys2Proof.Machine
end

section
/-! PROOFS. `Completes` read the other way: under its conditions an instruction answers that completion (spec 40_dispatch.md R42); and the fault a step takes
where the instruction does not fit into the store (R40). -/

namespace Sys2Proof.Machine

/-- The conditions of a completion are enough: with `exec_cases`, they are exactly what an instruction needs. -/
theorem Completes.exec_eq {i : Instr} {s t : State} (h : Completes i s t) : exec i s = .next t := by
  cases h with
  | stop => rfl
  | nop hip => exact commit_eq_next.2 (.inl (advance_eq_ok.2 ⟨hip, rfl⟩))
  | jmp ht => exact commit_eq_next.2 (.inl (jump_eq_ok.2 ⟨ht, rfl⟩))
  | push hcap hlen hip =>
    exact commit_eq_next.2 (.inl (bind_eq_ok.2 ⟨_, push_eq_ok.2 ⟨hcap, hlen, rfl⟩, advance_eq_ok.2 ⟨hip, rfl⟩⟩))
  | pop hsp hv hip | print hsp hv hip =>
    exact commit_eq_next.2 (.inl (bind_eq_ok.2 ⟨_, pop_eq_ok.2 ⟨hsp, hv, rfl⟩, advance_eq_ok.2 ⟨hip, rfl⟩⟩))
  | load k hr hcap hlen hip =>
    exact commit_eq_next.2 (.inl (bind_eq_ok.2 ⟨k, regIndex_eq_ok.2 hr,
      bind_eq_ok.2 ⟨_, push_eq_ok.2 ⟨hcap, hlen, rfl⟩, advance_eq_ok.2 ⟨hip, rfl⟩⟩⟩))
  | store k hr hsp hv hip =>
    exact commit_eq_next.2 (.inl (bind_eq_ok.2 ⟨k, regIndex_eq_ok.2 hr,
      bind_eq_ok.2 ⟨_, pop_eq_ok.2 ⟨hsp, hv, rfl⟩, advance_eq_ok.2 ⟨hip, rfl⟩⟩⟩))
  | jzTaken hsp hv h0 ht | jnzTaken hsp hv h0 ht =>
    exact commit_eq_next.2 (.inl (jumpIf_eq_ok.2 ⟨_, hsp, hv, .inl ⟨by simpa using h0, ht, rfl⟩⟩))
  | jzPast hsp hv h0 hip | jnzPast hsp hv h0 hip =>
    exact commit_eq_next.2 (.inl (jumpIf_eq_ok.2 ⟨_, hsp, hv, .inr ⟨by simpa using h0, hip, rfl⟩⟩))
  | alu hsp h1 h2 hop hcap hip =>
    rcases hop with ⟨rfl, hv⟩ | ⟨rfl, hv⟩ | ⟨rfl, hv⟩ | ⟨rfl, hv⟩
    case inr.inr.inr =>
      exact commit_eq_next.2 (.inl (aluFrame_eq_ok.2 ⟨_, _, _, hsp, h1, h2, aluDiv_eq_ok.2 hv, hcap, hip, rfl⟩))
    all_goals
      exact commit_eq_next.2 (.inl (aluFrame_eq_ok.2 ⟨_, _, _, hsp, h1, h2, congrArg Except.ok hv.symm, hcap, hip, rfl⟩))

/-- A running core at an opcode byte whose operands do not all lie in the store takes FetchOutOfBounds. -/
theorem step_of_beyond {s : State} (o : Opcode) (hip : s.ip.toNat < s.cfg.imemCap) (hrun : s.runState = .running)
    (hop : s.opByte = o.byte) (h : s.cfg.imemCap < s.ip.toNat + o.width) :
    step s = .next (s.startStep.raised .fetchOutOfBounds) :=
  step_of_fetch_raise hrun (fetch_of_beyond hip (by rw [hop, o.ofByte_byte]) h)

end Sys2Proof.Machine
end

section
/-! PROOFS. PUSH and POP on a stack of the spec's shape, each fault and the completion; and what the instructions that push one word, or pop one,
leave unchanged (spec 41_stack.md R47 to R50). -/

namespace Sys2Proof.Machine

/-- Short of IMEM_CAP the next sequential address does not wrap. -/
theorem State.past_ip_toNat {s : State} (hvalid : s.cfg.Valid) {w : Nat} (h : s.ip.toNat + w < s.cfg.imemCap) :
    (s.past w).ip.toNat = s.ip.toNat + w :=
  toNat_ofNat_of_lt_imemCap hvalid h

/-- A live slot is there. -/
theorem State.WF.getElem?_of_lt {s : State} (hwf : s.WF) {i : Nat} (hi : i < s.sp) : s.stk[i]? = some (s.slot i) := by
  obtain ⟨-, -, hsp, hlen, -⟩ := hwf
  have hpresent : i < s.stk.length := by omega
  simp [State.slot, hpresent]

/-- The slot that sp names is there, but for a full stack. -/
theorem State.WF.sp_lt_length {s : State} (hwf : s.WF) (h : s.sp + 2 < s.cfg.stackCap) : s.sp < s.stk.length := by
  obtain ⟨-, -, -, hlen, -⟩ := hwf
  omega

theorem exec_push_of_full {s : State} (imm : Word) (h : s.cfg.stackCap ≤ s.sp + 2) :
    exec (.push imm) s = .next (s.raised .stackOverflow) :=
  commit_eq_next.2 (.inr ⟨_, bind_eq_error.2 (.inl (push_eq_raise.2 ⟨rfl, h⟩)), rfl⟩)

theorem exec_push_of_end {s : State} (hwf : s.WF) (imm : Word) (hcap : s.sp + 2 < s.cfg.stackCap)
    (hip : s.cfg.imemCap ≤ s.ip.toNat + 5) : exec (.push imm) s = .next (s.raised .fetchOutOfBounds) :=
  have hpush : push imm s = .ok (s.pushed imm) := push_eq_ok.2 ⟨hcap, hwf.sp_lt_length hcap, rfl⟩
  commit_eq_next.2 (.inr ⟨_, bind_eq_error.2 (.inr ⟨_, hpush, advance_eq_error.2 ⟨rfl, hip⟩⟩), rfl⟩)

theorem exec_push_of_room {s : State} (hwf : s.WF) (imm : Word) (hcap : s.sp + 2 < s.cfg.stackCap)
    (hip : s.ip.toNat + 5 < s.cfg.imemCap) : exec (.push imm) s = .next ((s.pushed imm).past 5) :=
  (Completes.push hcap (hwf.sp_lt_length hcap) hip).exec_eq

theorem exec_pop_of_empty {s : State} (h : s.sp = 0) : exec .pop s = .next (s.raised .stackUnderflow) :=
  commit_eq_next.2 (.inr ⟨_, bind_eq_error.2 (.inl (pop_eq_raise.2 ⟨rfl, h⟩)), rfl⟩)

theorem exec_pop_of_end {s : State} (hwf : s.WF) (hsp : 0 < s.sp) (hip : s.cfg.imemCap ≤ s.ip.toNat + 1) :
    exec .pop s = .next (s.raised .fetchOutOfBounds) :=
  have hpop : pop s = .ok (s.slot (s.sp - 1), s.dropped) :=
    pop_eq_ok.2 ⟨hsp, hwf.getElem?_of_lt (Nat.sub_one_lt_of_lt hsp), rfl⟩
  commit_eq_next.2 (.inr ⟨_, bind_eq_error.2 (.inr ⟨_, hpop, advance_eq_error.2 ⟨rfl, hip⟩⟩), rfl⟩)

theorem exec_pop_of_pos {s : State} (hwf : s.WF) (hsp : 0 < s.sp) (hip : s.ip.toNat + 1 < s.cfg.imemCap) :
    exec .pop s = .next (s.dropped.past 1) :=
  (Completes.pop hsp (hwf.getElem?_of_lt (Nat.sub_one_lt_of_lt hsp)) hip).exec_eq

/-- POP, JZ, JNZ and PRINT complete by dropping the top and setting ip; PRINT emits the dropped word too. -/
theorem Completes.consumer_cases {i : Instr} {s t : State} (h : Completes i s t)
    (hi : i = .pop ∨ (∃ a, i = .jz a) ∨ (∃ a, i = .jnz a) ∨ i = .print) :
    0 < s.sp ∧ ((∃ a, t = s.dropped.setIp a) ∨
      (i = .print ∧ ∃ v a, s.stk[s.sp - 1]? = some v ∧ t = (s.dropped.emit v).setIp a)) := by
  cases h with
  | pop hsp | jzTaken hsp | jzPast hsp | jnzTaken hsp | jnzPast hsp => exact ⟨hsp, .inl ⟨_, rfl⟩⟩
  | print hsp hv => exact ⟨hsp, .inr ⟨rfl, _, _, hv, rfl⟩⟩
  | alu _ _ _ hop => obtain rfl | ⟨_, rfl⟩ | ⟨_, rfl⟩ | rfl := hi <;> simp at hop
  | _ => simp at hi

/-- PUSH and LOAD complete by pushing one word and setting ip. -/
theorem Completes.push_load_cases {i : Instr} {s t : State} (h : Completes i s t)
    (hi : (∃ imm, i = .push imm) ∨ ∃ r, i = .load r) : ∃ v a, t = (s.pushed v).setIp a := by
  cases h with
  | push | load => exact ⟨_, _, rfl⟩
  | alu _ _ _ hop => obtain ⟨_, rfl⟩ | ⟨_, rfl⟩ := hi <;> simp at hop
  | _ => simp at hi

/-- A push writes above the live slots, so dropping the word again gives them back. -/
theorem State.live_dropped_pushed (v : Word) (s : State) : (s.pushed v).dropped.live = s.live :=
  List.take_set_of_le (Nat.le_refl s.sp)

end Sys2Proof.Machine
end

section
/-! PROOFS. The statements of 41_stack.md. -/

namespace Sys2Proof.Machine

/-- Settles O28: the fetch's bounds check, then the push's overflow check, then `advance(5)`. -/
theorem pushPushesImmediate : Obligations.PushPushesImmediate := by
  unfold Obligations.PushPushesImmediate
  intro s imm hwf
  have ⟨_, hip, _⟩ := hwf
  refine ⟨rfl, fun hrun hop h => step_of_beyond .push hip hrun hop h, fun h => exec_push_of_full imm (by omega),
    fun hcap h => exec_push_of_end hwf imm (by omega) h, fun hcap h => ?_⟩
  rw [exec_push_of_room hwf imm (by omega) h, State.past_eq]
  rfl

/-- Settles O29: the pop's underflow check, then `advance(1)`; dropping the top writes no slot. -/
theorem popDiscardsTop : Obligations.PopDiscardsTop := by
  unfold Obligations.PopDiscardsTop
  refine fun s hwf => ⟨rfl, exec_pop_of_empty, fun hsp h => exec_pop_of_end hwf hsp h.ge, fun hsp h => ?_⟩
  rw [exec_pop_of_pos hwf hsp h, State.past_eq]
  rfl

/-- Settles O41: a fault entry writes status alone, and the completions sp, ip and, of PRINT, the output. -/
theorem frameOfConsumers : Obligations.FrameOfConsumers := by
  unfold Obligations.FrameOfConsumers
  intro s t i hi h
  obtain ⟨k, rfl⟩ | hc := exec_cases h
  · exact ⟨rfl, rfl, fun _ => rfl, rfl, rfl, rfl, .inl ⟨k, rfl⟩⟩
  · obtain ⟨hsp, ⟨a, rfl⟩ | ⟨hprint, v, a, hv, rfl⟩⟩ := hc.consumer_cases hi
    · exact ⟨rfl, rfl, fun _ => rfl, rfl, rfl, rfl, .inr ⟨rfl, Nat.sub_add_cancel hsp, .inl rfl⟩⟩
    · exact ⟨rfl, rfl, fun _ => rfl, rfl, rfl, rfl, .inr ⟨rfl, Nat.sub_add_cancel hsp, .inr ⟨hprint, v, hv, rfl⟩⟩⟩

/-- Settles O43: a fault entry writes status alone, and the completions ip, sp and the slot sp named. -/
theorem frameOfPushLoad : Obligations.FrameOfPushLoad := by
  unfold Obligations.FrameOfPushLoad
  intro s t i hi h
  obtain ⟨k, rfl⟩ | hc := exec_cases h
  · exact ⟨rfl, fun _ _ => rfl, fun _ => rfl, rfl, rfl, rfl, rfl, .inl ⟨k, rfl⟩⟩
  · obtain ⟨v, a, rfl⟩ := hc.push_load_cases hi
    exact ⟨rfl, fun j hj => List.getElem?_set_ne hj.symm, fun _ => rfl, rfl, rfl, rfl, rfl, .inr ⟨rfl, rfl⟩⟩

/-- Settles O45: the PUSH leaves v on top and ip short of the last address, so the POP completes, and drops v alone. -/
theorem pushThenPopRestoresSp : Obligations.PushThenPopRestoresSp := by
  unfold Obligations.PushThenPopRestoresSp
  intro s v hwf hcap hip
  have ⟨hvalid, _⟩ := hwf
  have hroom : s.sp + 2 < s.cfg.stackCap := by omega
  have hpush : exec (.push v) s = .next ((s.pushed v).past 5) := exec_push_of_room hwf v hroom (by omega)
  have htop : (s.pushed v).stk[s.sp]? = some v := List.getElem?_set_self (hwf.sp_lt_length hroom)
  have hip5 : ((s.pushed v).past 5).ip.toNat = s.ip.toNat + 5 :=
    State.past_ip_toNat (s := s.pushed v) hvalid (Nat.lt_of_succ_lt hip)
  have hlt : ((s.pushed v).past 5).ip.toNat + 1 < s.cfg.imemCap := by rwa [hip5]
  have hpop : exec .pop ((s.pushed v).past 5) = .next (((s.pushed v).past 5).dropped.past 1) :=
    (Completes.pop (s := (s.pushed v).past 5) (Nat.succ_pos s.sp) htop hlt).exec_eq
  have hip6 : (((s.pushed v).past 5).dropped.past 1).ip.toNat = s.ip.toNat + 6 :=
    (State.past_ip_toNat (s := ((s.pushed v).past 5).dropped) hvalid hlt).trans (congrArg (· + 1) hip5)
  exact ⟨_, _, hpush, htop, hpop, rfl, hip6, State.live_dropped_pushed v s, rfl⟩

end Sys2Proof.Machine
end

section
/-! PROOFS. LOAD and STORE on a stack of the spec's shape, each fault and the completion, and what a register and the top hold after a write
(spec 42_register.md R51 to R53). -/

namespace Sys2Proof.Machine

@[simp] theorem State.reg_setReg_self (k : Fin 16) (v : Word) (s : State) : (s.setReg k v).reg k = v :=
  Vector.getElem_set_self k.isLt

theorem State.reg_setReg_of_ne {j k : Fin 16} (h : j ≠ k) (v : Word) (s : State) : (s.setReg k v).reg j = s.reg j :=
  Vector.getElem_set_ne k.isLt j.isLt (Fin.val_ne_of_ne h.symm)

/-- The vacated slot keeps its word, so pushing that word again gives the state back. -/
theorem State.pushed_dropped_of_top {s : State} {v : Word} (hsp : 0 < s.sp) (hv : s.stk[s.sp - 1]? = some v) :
    s.dropped.pushed v = s := by
  obtain ⟨hlen, rfl⟩ := List.getElem?_eq_some_iff.1 hv
  simp [State.dropped, State.pushed, Nat.sub_add_cancel hsp]

theorem State.WF.push_of_room {s : State} (hwf : s.WF) (v : Word) (hcap : s.sp + 2 < s.cfg.stackCap) :
    push v s = .ok (s.pushed v) :=
  push_eq_ok.2 ⟨hcap, hwf.sp_lt_length hcap, rfl⟩

theorem State.WF.pop_of_pos {s : State} (hwf : s.WF) (hsp : 0 < s.sp) : pop s = .ok (s.slot (s.sp - 1), s.dropped) :=
  pop_eq_ok.2 ⟨hsp, hwf.getElem?_of_lt (Nat.sub_one_lt_of_lt hsp), rfl⟩

/-- The state a completed STORE leaves: the top word in x[k], sp lower by 1, ip past the instruction. -/
abbrev State.stored (k : Fin 16) (s : State) : State := (s.dropped.setReg k (s.slot (s.sp - 1))).past 2

section
variable {s : State} {r : Byte}

theorem exec_load_of_ge (hr : 16 ≤ r.toNat) : exec (.load r) s = .next (s.raised .invalidRegister) :=
  commit_eq_next.2 (.inr ⟨_, bind_eq_error.2 (.inl (regIndex_of_ge hr)), rfl⟩)

theorem exec_store_of_ge (hr : 16 ≤ r.toNat) : exec (.store r) s = .next (s.raised .invalidRegister) :=
  commit_eq_next.2 (.inr ⟨_, bind_eq_error.2 (.inl (regIndex_of_ge hr)), rfl⟩)

variable {k : Fin 16} (hr : r.toNat = k.val)
include hr

theorem exec_load_of_full (h : s.cfg.stackCap ≤ s.sp + 2) : exec (.load r) s = .next (s.raised .stackOverflow) :=
  have hpush : push (s.reg k) s = .error (.raise .stackOverflow) := push_eq_raise.2 ⟨rfl, h⟩
  commit_eq_next.2 (.inr ⟨_, bind_eq_error.2 (.inr ⟨k, regIndex_eq_ok.2 hr, bind_eq_error.2 (.inl hpush)⟩), rfl⟩)

theorem exec_load_of_end (hwf : s.WF) (hcap : s.sp + 2 < s.cfg.stackCap) (hip : s.cfg.imemCap ≤ s.ip.toNat + 2) :
    exec (.load r) s = .next (s.raised .fetchOutOfBounds) :=
  have hadvance : advance 2 (s.pushed (s.reg k)) = .error (.raise .fetchOutOfBounds) := advance_eq_error.2 ⟨rfl, hip⟩
  commit_eq_next.2 (.inr ⟨_, bind_eq_error.2 (.inr ⟨k, regIndex_eq_ok.2 hr,
    bind_eq_error.2 (.inr ⟨_, hwf.push_of_room _ hcap, hadvance⟩)⟩), rfl⟩)

theorem exec_load_of_room (hwf : s.WF) (hcap : s.sp + 2 < s.cfg.stackCap) (hip : s.ip.toNat + 2 < s.cfg.imemCap) :
    exec (.load r) s = .next ((s.pushed (s.reg k)).past 2) :=
  (Completes.load k hr hcap (hwf.sp_lt_length hcap) hip).exec_eq

theorem exec_store_of_empty (h : s.sp = 0) : exec (.store r) s = .next (s.raised .stackUnderflow) :=
  have hpop : pop s = .error (.raise .stackUnderflow) := pop_eq_raise.2 ⟨rfl, h⟩
  commit_eq_next.2 (.inr ⟨_, bind_eq_error.2 (.inr ⟨k, regIndex_eq_ok.2 hr, bind_eq_error.2 (.inl hpop)⟩), rfl⟩)

theorem exec_store_of_end (hwf : s.WF) (hsp : 0 < s.sp) (hip : s.cfg.imemCap ≤ s.ip.toNat + 2) :
    exec (.store r) s = .next (s.raised .fetchOutOfBounds) :=
  have hadvance : advance 2 (s.dropped.setReg k (s.slot (s.sp - 1))) = .error (.raise .fetchOutOfBounds) :=
    advance_eq_error.2 ⟨rfl, hip⟩
  commit_eq_next.2 (.inr ⟨_, bind_eq_error.2 (.inr ⟨k, regIndex_eq_ok.2 hr,
    bind_eq_error.2 (.inr ⟨_, hwf.pop_of_pos hsp, hadvance⟩)⟩), rfl⟩)

theorem exec_store_of_pos (hwf : s.WF) (hsp : 0 < s.sp) (hip : s.ip.toNat + 2 < s.cfg.imemCap) :
    exec (.store r) s = .next (s.stored k) :=
  (Completes.store k hr hsp (hwf.getElem?_of_lt (Nat.sub_one_lt_of_lt hsp)) hip).exec_eq

/-- A LOAD of the register just stored pushes the word back into the slot that still holds it: the two together write x[k] and ip alone. -/
theorem exec_load_stored (hwf : s.WF) (hsp : 0 < s.sp) (hcap : s.sp + 2 ≤ s.cfg.stackCap) (hip : s.ip.toNat + 4 < s.cfg.imemCap) :
    exec (.load r) (s.stored k) = .next ((s.setReg k (s.slot (s.sp - 1))).past 4) := by
  have ⟨hvalid, _, _, hlen, _⟩ := hwf
  have hreg : (s.stored k).reg k = s.slot (s.sp - 1) := State.reg_setReg_self ..
  have hip2 : (s.stored k).ip.toNat = s.ip.toNat + 2 :=
    State.past_ip_toNat (s := s) hvalid (show s.ip.toNat + 2 < s.cfg.imemCap by omega)
  have hback : s.dropped.pushed (s.slot (s.sp - 1)) = s :=
    State.pushed_dropped_of_top hsp (hwf.getElem?_of_lt (Nat.sub_one_lt_of_lt hsp))
  have hroom : (s.stored k).sp + 2 < s.cfg.stackCap := by simp; omega
  have hslot : (s.stored k).sp < s.stk.length := by simp; omega
  have hlt : (s.stored k).ip.toNat + 2 < s.cfg.imemCap := by omega
  calc exec (.load r) (s.stored k)
      = .next (((s.stored k).pushed (s.slot (s.sp - 1))).past 2) := hreg ▸ (Completes.load k hr hroom hslot hlt).exec_eq
    _ = .next (((s.dropped.pushed (s.slot (s.sp - 1))).setReg k (s.slot (s.sp - 1))).setIp
          (BitVec.ofNat 16 ((s.stored k).ip.toNat + 2))) := rfl
    _ = .next ((s.setReg k (s.slot (s.sp - 1))).past 4) := by rw [hback, hip2]; rfl

end

theorem Completes.store_cases {r : Byte} {s t : State} (h : Completes (.store r) s t) :
    0 < s.sp ∧ ∃ k : Fin 16, r.toNat = k.val ∧ t = s.stored k := by
  cases h with
  | store k hr hsp hv => exact ⟨hsp, k, hr, by simp [State.stored, State.slot, hv]⟩
  | alu _ _ _ hop => simp at hop

end Sys2Proof.Machine
end

section
/-! PROOFS. The statements of 42_register.md. -/

namespace Sys2Proof.Machine

/-- Settles O30: the fetch's bounds check, then the index check, the push's overflow check and `advance(2)`. -/
theorem loadPushesRegister : Obligations.LoadPushesRegister := by
  unfold Obligations.LoadPushesRegister
  intro s r hwf
  have ⟨_, hip, _⟩ := hwf
  refine ⟨rfl, fun hrun hop h => step_of_beyond .load hip hrun hop h, exec_load_of_ge, fun hr => ?_⟩
  have hk : r.toNat = (⟨r.toNat, hr⟩ : Fin 16).val := rfl
  refine ⟨fun h => exec_load_of_full hk (by omega), fun hcap h => exec_load_of_end hk hwf (by omega) h, fun hcap h => ?_⟩
  rw [exec_load_of_room hk hwf (by omega) h, State.past_eq]
  rfl

/-- Settles O31: the fetch's bounds check, then the index check, the pop's underflow check and `advance(2)`. -/
theorem storePopsIntoRegister : Obligations.StorePopsIntoRegister := by
  unfold Obligations.StorePopsIntoRegister
  intro s r hwf
  have ⟨_, hip, _⟩ := hwf
  refine ⟨rfl, fun hrun hop h => step_of_beyond .store hip hrun hop h, exec_store_of_ge, fun hr => ?_⟩
  have hk : r.toNat = (⟨r.toNat, hr⟩ : Fin 16).val := rfl
  refine ⟨exec_store_of_empty hk, exec_store_of_end hk hwf, fun hsp h => ?_⟩
  rw [exec_store_of_pos hk hwf hsp h, State.stored, State.past_eq]
  rfl

/-- Settles O42: a fault entry writes status alone, and the completion x[r], sp and ip. -/
theorem frameOfStore : Obligations.FrameOfStore := by
  unfold Obligations.FrameOfStore
  intro s t r h
  obtain ⟨f, rfl⟩ | hc := exec_cases h
  · exact ⟨fun _ _ => rfl, rfl, fun _ => rfl, rfl, rfl, rfl, rfl, .inl ⟨f, rfl⟩⟩
  · obtain ⟨hsp, k, hr, rfl⟩ := hc.store_cases
    have hreg (j : Fin 16) (hj : j.val ≠ r.toNat) : (s.stored k).reg j = s.reg j :=
      State.reg_setReg_of_ne (Fin.ne_of_val_ne (hr ▸ hj)) _ s
    exact ⟨hreg, rfl, fun _ => rfl, rfl, rfl, rfl, rfl, .inr ⟨rfl, Nat.sub_add_cancel hsp⟩⟩

/-- Settles O46: together the STORE and the LOAD write x[r] and ip alone. -/
theorem storeThenLoadLeavesValue : Obligations.StoreThenLoadLeavesValue := by
  unfold Obligations.StoreThenLoadLeavesValue
  intro s r hr hwf hsp hcap hip
  have hk : r.toNat = (⟨r.toNat, hr⟩ : Fin 16).val := rfl
  have ⟨hvalid, _⟩ := hwf
  exact ⟨_, _, exec_store_of_pos hk hwf hsp (by omega), exec_load_stored hk hwf hsp hcap hip, rfl, rfl,
    State.reg_setReg_self .., State.past_ip_toNat (s := s) hvalid hip⟩

end Sys2Proof.Machine
end

section
/-! PROOFS. JMP, and the frame of JZ and JNZ on a stack of the spec's shape, each fault and the completion; and the step of a JMP to its own address
(spec 43_control.md R54 to R57; 70_reset_and_hazards.md R86). -/

namespace Sys2Proof.Machine

theorem exec_jmp_of_invalid {s : State} {t : Addr} (h : s.cfg.imemCap ≤ t.toNat) :
    exec (.jmp t) s = .next (s.raised .invalidJumpTarget) :=
  commit_eq_next.2 (.inr ⟨_, jump_eq_error.2 ⟨rfl, h⟩, rfl⟩)

section
variable {s : State} {taken : Word → Bool} {t : Addr}

theorem commit_jumpIf_of_empty (h : s.sp = 0) : s.commit (jumpIf taken t s) = .next (s.raised .stackUnderflow) :=
  commit_eq_next.2 (.inr ⟨_, bind_eq_error.2 (.inl (pop_eq_raise.2 ⟨rfl, h⟩)), rfl⟩)

variable (hwf : s.WF) (hsp : 0 < s.sp)
include hwf hsp

/-- With a word to pop, the frame is the jump or `advance(3)`, as `taken` says of that word. -/
theorem State.WF.jumpIf_of_pos :
    jumpIf taken t s = if taken (s.slot (s.sp - 1)) then jump t s.dropped else advance 3 s.dropped := by
  rw [jumpIf, hwf.pop_of_pos hsp, bind_ok_eq]

theorem commit_jumpIf_of_taken_invalid (hv : taken (s.slot (s.sp - 1)) = true) (ht : s.cfg.imemCap ≤ t.toNat) :
    s.commit (jumpIf taken t s) = .next (s.raised .invalidJumpTarget) := by
  rw [hwf.jumpIf_of_pos hsp, if_pos hv]
  exact commit_eq_next.2 (.inr ⟨_, jump_eq_error.2 ⟨rfl, ht⟩, rfl⟩)

theorem commit_jumpIf_of_taken (hv : taken (s.slot (s.sp - 1)) = true) (ht : t.toNat < s.cfg.imemCap) :
    s.commit (jumpIf taken t s) = .next { s with sp := s.sp - 1, ip := t } := by
  rw [hwf.jumpIf_of_pos hsp, if_pos hv]
  exact commit_eq_next.2 (.inl (jump_eq_ok.2 ⟨ht, rfl⟩))

theorem commit_jumpIf_of_not_taken_end (hv : taken (s.slot (s.sp - 1)) = false) (hip : s.cfg.imemCap ≤ s.ip.toNat + 3) :
    s.commit (jumpIf taken t s) = .next (s.raised .fetchOutOfBounds) := by
  rw [hwf.jumpIf_of_pos hsp, if_neg (ne_true_of_eq_false hv)]
  exact commit_eq_next.2 (.inr ⟨_, advance_eq_error.2 ⟨rfl, hip⟩, rfl⟩)

theorem commit_jumpIf_of_not_taken (hv : taken (s.slot (s.sp - 1)) = false) (hip : s.ip.toNat + 3 < s.cfg.imemCap) :
    s.commit (jumpIf taken t s) = .next { s with sp := s.sp - 1, ip := s.ip + 3 } := by
  rw [hwf.jumpIf_of_pos hsp, if_neg (ne_true_of_eq_false hv)]
  exact commit_eq_next.2 (.inl (advance_eq_ok.2 ⟨hip, (State.past_eq 3 s.dropped).symm⟩))

end

/-- A JMP to its own address leaves what the beginning of the step leaves: phase and trace are all that changes. -/
theorem step_of_selfJump {s : State} (hip : s.ip.toNat < s.cfg.imemCap) (hrun : s.runState = .running)
    (hf : fetch s = .ok (.jmp s.ip)) : step s = .next s.startStep :=
  (step_of_fetch hrun hf).trans (Completes.jmp (s := s.startStep) hip).exec_eq

end Sys2Proof.Machine
end

section
/-! PROOFS. The statements of 43_control.md. -/

namespace Sys2Proof.Machine

/-- Settles O32: the fetch's bounds check, then the target check; ip is read by neither the check nor the jump. -/
theorem jmpSetsIp : Obligations.JmpSetsIp := by
  unfold Obligations.JmpSetsIp
  intro s t hwf
  have ⟨_, hip, _⟩ := hwf
  exact ⟨rfl, fun hrun hop h => step_of_beyond .jmp hip hrun hop h, exec_jmp_of_invalid, fun ht => (Completes.jmp ht).exec_eq⟩

/-- Settles O33: the fetch's bounds check, then the frame's checks, with the jump taken on the popped word 0. -/
theorem jzJumpsOnZero : Obligations.JzJumpsOnZero := by
  unfold Obligations.JzJumpsOnZero
  intro s t hwf
  have ⟨_, hip, _⟩ := hwf
  exact ⟨rfl, fun hrun hop h => step_of_beyond .jz hip hrun hop h, commit_jumpIf_of_empty,
    fun hsp hv => commit_jumpIf_of_taken_invalid hwf hsp (beq_iff_eq.2 hv),
    fun hsp hv => commit_jumpIf_of_taken hwf hsp (beq_iff_eq.2 hv),
    fun hsp hv => commit_jumpIf_of_not_taken_end hwf hsp (beq_eq_false_iff_ne.2 hv),
    fun hsp hv => commit_jumpIf_of_not_taken hwf hsp (beq_eq_false_iff_ne.2 hv)⟩

/-- Settles O34: the fetch's bounds check, then the frame's checks, with the jump taken on a popped word other than 0. -/
theorem jnzJumpsOnNonzero : Obligations.JnzJumpsOnNonzero := by
  unfold Obligations.JnzJumpsOnNonzero
  intro s t hwf
  have ⟨_, hip, _⟩ := hwf
  exact ⟨rfl, fun hrun hop h => step_of_beyond .jnz hip hrun hop h, commit_jumpIf_of_empty,
    fun hsp hv => commit_jumpIf_of_taken_invalid hwf hsp (bne_iff_ne.2 hv),
    fun hsp hv => commit_jumpIf_of_taken hwf hsp (bne_iff_ne.2 hv),
    fun hsp hv => commit_jumpIf_of_not_taken_end hwf hsp (bne_eq_false_iff_eq.2 hv),
    fun hsp hv => commit_jumpIf_of_not_taken hwf hsp (bne_eq_false_iff_eq.2 hv)⟩

/-- Settles O56, by induction on the budget: each step leaves the core state and the output alone, so the next one fetches the same JMP. -/
theorem selfJumpNeverEnds : Obligations.SelfJumpNeverEnds := by
  unfold Obligations.SelfJumpNeverEnds
  intro s hwf hrun hf n
  induction n generalizing s with
  | zero => simp [State.run, State.runEnd, hrun]
  | succ n ih =>
    have ⟨_, hip, _⟩ := hwf
    rw [run_succ_of_next (step_of_selfJump hip hrun hf)]
    exact ih s.startStep hwf hrun hf

end Sys2Proof.Machine
end

section
/-! PROOFS. The two-operand frame of ADD, SUB, MUL and DIV on a stack of the spec's shape, each fault and the completion (spec 44_arith.md R58). -/

namespace Sys2Proof.Machine

theorem State.WF.dropped {s : State} (hwf : s.WF) : s.dropped.WF := by
  obtain ⟨hvalid, hip, hsp, hrest⟩ := hwf
  exact ⟨hvalid, hip, (Nat.sub_le ..).trans hsp, hrest⟩

/-- The state a completed ADD, SUB, MUL or DIV leaves: the result in place of s2, the old top's slot untouched, ip past the instruction. -/
abbrev State.aluResult (v : Word) (s : State) : State :=
  { s with stk := s.stk.set (s.sp - 2) v, sp := s.sp - 1, ip := s.ip + 1 }

/-- Two pops and the push of the result write the slot of s2 alone. -/
theorem State.past_pushed_dropped_dropped {s : State} (hsp : 2 ≤ s.sp) (v : Word) :
    (s.dropped.dropped.pushed v).past 1 = s.aluResult v := by
  have hcount : s.sp - 2 + 1 = s.sp - 1 := by omega
  simp [State.past_eq, State.pushed, State.dropped, Nat.sub_sub, hcount]

/-- The result is the new top. -/
theorem State.WF.slot_top_aluResult {s : State} (hwf : s.WF) (hsp : 2 ≤ s.sp) (v : Word) :
    (s.aluResult v).slot ((s.aluResult v).sp - 1) = v := by
  obtain ⟨-, -, hcap, hlen, -⟩ := hwf
  have hslot : s.sp - 2 < s.stk.length := by omega
  simp [State.slot, Nat.sub_sub, hslot]

section
variable {s : State} {op : Word → Word → Except Abort Word} (hwf : s.WF)
include hwf

/-- With fewer than two words one of the two pops finds an empty stack. -/
theorem commit_aluFrame_of_short (h : s.sp < 2) : s.commit (aluFrame op s) = .next (s.raised .stackUnderflow) := by
  refine commit_eq_next.2 (.inr ⟨_, ?_, rfl⟩)
  by_cases hsp : s.sp = 0
  · exact bind_eq_error.2 (.inl (pop_eq_raise.2 ⟨rfl, hsp⟩))
  · have hempty : s.dropped.sp = 0 := by simp; omega
    exact bind_eq_error.2 (.inr ⟨_, hwf.pop_of_pos (by omega), bind_eq_error.2 (.inl (pop_eq_raise.2 ⟨rfl, hempty⟩))⟩)

variable (hsp : 2 ≤ s.sp)
include hsp

/-- With two words to pop the frame is the operation on them, then the push of its result and `advance(1)`. -/
theorem State.WF.aluFrame_of_two :
    aluFrame op s = op (s.slot (s.sp - 2)) (s.slot (s.sp - 1)) >>= fun v => push v s.dropped.dropped >>= advance 1 := by
  have hpop : pop s.dropped = .ok (s.slot (s.sp - 2), s.dropped.dropped) :=
    hwf.dropped.pop_of_pos (show 0 < s.sp - 1 by omega)
  simp only [aluFrame, hwf.pop_of_pos (Nat.zero_lt_of_lt hsp), bind_ok_eq, hpop]

theorem commit_aluFrame_of_raise {k : FaultKind} (hop : op (s.slot (s.sp - 2)) (s.slot (s.sp - 1)) = .error (.raise k)) :
    s.commit (aluFrame op s) = .next (s.raised k) := by
  rw [hwf.aluFrame_of_two hsp, hop]
  rfl

variable {v : Word} (hop : op (s.slot (s.sp - 2)) (s.slot (s.sp - 1)) = .ok v) (hcap : s.sp < s.cfg.stackCap)
include hop hcap

theorem commit_aluFrame_of_end (hip : s.cfg.imemCap ≤ s.ip.toNat + 1) :
    s.commit (aluFrame op s) = .next (s.raised .fetchOutOfBounds) := by
  have hroom : s.dropped.dropped.sp + 2 < s.cfg.stackCap := by simp; omega
  have hpush : push v s.dropped.dropped = .ok (s.dropped.dropped.pushed v) := hwf.dropped.dropped.push_of_room v hroom
  rw [hwf.aluFrame_of_two hsp, hop, bind_ok_eq, hpush]
  exact commit_eq_next.2 (.inr ⟨_, advance_eq_error.2 ⟨rfl, hip⟩, rfl⟩)

theorem commit_aluFrame_of_room (hip : s.ip.toNat + 1 < s.cfg.imemCap) :
    s.commit (aluFrame op s) = .next (s.aluResult v) :=
  commit_eq_next.2 (.inl (aluFrame_eq_ok.2 ⟨_, _, v, hsp, hwf.getElem?_of_lt (by omega), hwf.getElem?_of_lt (by omega), hop,
    hcap, hip, (State.past_pushed_dropped_dropped hsp v).symm⟩))

end

/-- The frame of an operation that raises nothing, as ADD, SUB and MUL have it: StackUnderflow, FetchOutOfBounds, or the result. -/
theorem State.WF.commit_aluFrame_ok {s : State} (hwf : s.WF) (op : Word → Word → Word) :
    (s.sp < 2 → s.commit (aluFrame (fun s2 s1 => .ok (op s2 s1)) s) = .next (s.raised .stackUnderflow)) ∧
    (2 ≤ s.sp → s.sp < s.cfg.stackCap → s.ip.toNat + 1 = s.cfg.imemCap →
      s.commit (aluFrame (fun s2 s1 => .ok (op s2 s1)) s) = .next (s.raised .fetchOutOfBounds)) ∧
    (2 ≤ s.sp → s.sp < s.cfg.stackCap → s.ip.toNat + 1 < s.cfg.imemCap →
      s.commit (aluFrame (fun s2 s1 => .ok (op s2 s1)) s) = .next (s.aluResult (op (s.slot (s.sp - 2)) (s.slot (s.sp - 1))))) :=
  ⟨commit_aluFrame_of_short hwf, fun hsp hcap hip => commit_aluFrame_of_end hwf hsp rfl hcap hip.ge,
    fun hsp hcap hip => commit_aluFrame_of_room hwf hsp rfl hcap hip⟩

/-- ADD, SUB, MUL and DIV complete by putting one word in place of the two on top. -/
theorem Completes.alu_cases {i : Instr} {s t : State} (h : Completes i s t) (hi : i = .add ∨ i = .sub ∨ i = .mul ∨ i = .div) :
    2 ≤ s.sp ∧ ∃ v, t = s.aluResult v := by
  cases h with
  | alu hsp => exact ⟨hsp, _, State.past_pushed_dropped_dropped hsp _⟩
  | _ => simp at hi

end Sys2Proof.Machine
end

section
/-! PROOFS. The operations as integers: wrapping, and the quotient rounded toward zero (spec 00_scope.md R5; 44_arith.md R59 to R63). -/

namespace Sys2Proof.Machine

/-- The signed value of a wrapped integer, by 00_scope.md R5's formula. -/
theorem toInt_wrap32 (n : Int) : (wrap32 n).toInt = (n + 2 ^ 31) % 2 ^ 32 - 2 ^ 31 := by
  rw [BitVec.toInt_ofInt, Int.bmod_def]
  omega

/-- ADD's operands may be taken in the order of the other operations', s2 first. -/
theorem aluAdd_eq_wrap32 (s2 s1 : Word) : aluAdd s2 s1 = wrap32 (s2.toInt + s1.toInt) :=
  congrArg wrap32 (Int.add_comm ..)

theorem aluDiv_zero (s2 : Word) : aluDiv s2 0 = .error (.raise .divideByZero) := if_pos rfl

theorem aluQuot_eq_sdiv (s2 s1 : Word) : aluQuot s2 s1 = s2.sdiv s1 :=
  BitVec.eq_of_toInt_eq ((BitVec.toInt_ofInt _).trans (BitVec.toInt_sdiv s2 s1).symm)

theorem aluQuot_intMin_neg_one : aluQuot intMin (-1) = intMin :=
  (aluQuot_eq_sdiv ..).trans BitVec.intMin_sdiv_neg_one

/-- But for INT_MIN / −1 the quotient fits, so nothing is wrapped. -/
theorem toInt_aluQuot {s2 s1 : Word} (h : ¬(s2 = intMin ∧ s1 = -1)) : (aluQuot s2 s1).toInt = s2.toInt.tdiv s1.toInt := by
  rw [aluQuot_eq_sdiv]
  exact BitVec.toInt_sdiv_of_ne_or_ne s2 s1 (not_and_or.1 h)

theorem natAbs_tmod_lt (a : Int) {b : Int} (hb : b ≠ 0) : (a.tmod b).natAbs < b.natAbs := by
  rw [Int.natAbs_tmod]
  exact Nat.mod_lt _ (Int.natAbs_pos.2 hb)

theorem tmod_nonpos_of_nonpos {a : Int} (b : Int) (ha : a ≤ 0) : a.tmod b ≤ 0 := by
  have hneg : 0 ≤ (-a).tmod b := Int.tmod_nonneg b (by omega)
  rw [Int.neg_tmod] at hneg
  omega

end Sys2Proof.Machine
end

section
/-! PROOFS. The statements of 44_arith.md. -/

namespace Sys2Proof.Machine

/-- Settles O35: the frame's checks, with the sum of the two words on top. -/
theorem addWraps : Obligations.AddWraps := fun _ hwf => ⟨rfl, hwf.commit_aluFrame_ok aluAdd⟩

/-- Settles O36: the frame's checks, with the difference of the two words on top, the top subtracted. -/
theorem subWraps : Obligations.SubWraps := fun _ hwf => ⟨rfl, hwf.commit_aluFrame_ok aluSub⟩

/-- Settles O37: the frame's checks, with the product of the two words on top. -/
theorem mulWraps : Obligations.MulWraps := fun _ hwf => ⟨rfl, hwf.commit_aluFrame_ok aluMul⟩

/-- Settles O38: the frame's checks, with the divisor's between the pops and the push. -/
theorem divTruncates : Obligations.DivTruncates := by
  unfold Obligations.DivTruncates
  refine fun s hwf => ⟨rfl, commit_aluFrame_of_short hwf, fun hsp hzero => ?_, fun hsp hcap hne hip => ?_, fun hsp hcap hne hip => ?_⟩
  · exact commit_aluFrame_of_raise hwf hsp (by rw [hzero, aluDiv_zero])
  · exact commit_aluFrame_of_end hwf hsp (aluDiv_eq_ok.2 ⟨hne, rfl⟩) hcap hip.ge
  · exact commit_aluFrame_of_room hwf hsp (aluDiv_eq_ok.2 ⟨hne, rfl⟩) hcap hip

/-- Settles O44: a fault entry writes status alone, and the completion the slot of s2, sp and ip. -/
theorem frameOfArithmetic : Obligations.FrameOfArithmetic := by
  unfold Obligations.FrameOfArithmetic
  intro s t i hi h
  obtain ⟨k, rfl⟩ | hc := exec_cases h
  · exact ⟨rfl, fun _ _ => rfl, fun _ => rfl, rfl, rfl, rfl, rfl, .inl ⟨k, rfl⟩⟩
  · obtain ⟨hsp, v, rfl⟩ := hc.alu_cases hi
    have hslots (j : Nat) (hj : j + 2 ≠ s.sp) : (s.aluResult v).stk[j]? = s.stk[j]? := List.getElem?_set_ne (by omega)
    exact ⟨rfl, hslots, fun _ => rfl, rfl, rfl, rfl, rfl, .inr ⟨rfl, Nat.sub_add_cancel (by omega), hsp⟩⟩

/-- Settles O47: each of the three leaves the exact result wrapped, whose signed value is R5's formula. -/
theorem arithmeticWrapsExactResult : Obligations.ArithmeticWrapsExactResult := by
  unfold Obligations.ArithmeticWrapsExactResult
  intro s i f hi hwf hsp hcap hip
  have hexec : exec i s = .next (s.aluResult (wrap32 (f (s.slot (s.sp - 2)).toInt (s.slot (s.sp - 1)).toInt))) := by
    obtain ⟨rfl, rfl⟩ | ⟨rfl, rfl⟩ | ⟨rfl, rfl⟩ := hi
    · exact commit_aluFrame_of_room hwf hsp (congrArg Except.ok (aluAdd_eq_wrap32 ..)) hcap hip
    · exact commit_aluFrame_of_room hwf hsp rfl hcap hip
    · exact commit_aluFrame_of_room hwf hsp rfl hcap hip
  refine ⟨_, hexec, rfl, ?_⟩
  rw [hwf.slot_top_aluResult hsp, toInt_wrap32]

/-- Settles O48: the quotient left is the truncated one, whose remainder is `Int.tmod`; in the one case it does not fit it wraps to INT_MIN. -/
theorem quotientRoundsTowardZero : Obligations.QuotientRoundsTowardZero := by
  unfold Obligations.QuotientRoundsTowardZero
  intro s hwf hsp hcap hip hne
  refine ⟨_, commit_aluFrame_of_room hwf hsp (aluDiv_eq_ok.2 ⟨hne, rfl⟩) hcap hip, ?_⟩
  rw [hwf.slot_top_aluResult hsp]
  refine ⟨fun ⟨h2, h1⟩ => by rw [h2, h1, aluQuot_intMin_neg_one], fun h => ?_⟩
  have hdivisor : (s.slot (s.sp - 1)).toInt ≠ 0 := fun h0 => hne (BitVec.eq_of_toInt_eq h0)
  rw [toInt_aluQuot h]
  exact ⟨_, Int.tdiv_mul_add_tmod .., natAbs_tmod_lt _ hdivisor, Int.tmod_nonneg _, tmod_nonpos_of_nonpos _⟩

end Sys2Proof.Machine
end

section
/-! PROOFS. PRINT on a stack of the spec's shape, each fault and the completion; and what a completion does to the output (spec 45_output.md R64, R65). -/

namespace Sys2Proof.Machine

theorem exec_print_of_empty {s : State} (h : s.sp = 0) : exec .print s = .next (s.raised .stackUnderflow) :=
  commit_eq_next.2 (.inr ⟨_, bind_eq_error.2 (.inl (pop_eq_raise.2 ⟨rfl, h⟩)), rfl⟩)

/-- The value is popped and emitted before the bounds check; the fault discards both. -/
theorem exec_print_of_end {s : State} (hwf : s.WF) (hsp : 0 < s.sp) (hip : s.cfg.imemCap ≤ s.ip.toNat + 1) :
    exec .print s = .next (s.raised .fetchOutOfBounds) :=
  have hadvance : advance 1 (s.dropped.emit (s.slot (s.sp - 1))) = .error (.raise .fetchOutOfBounds) :=
    advance_eq_error.2 ⟨rfl, hip⟩
  commit_eq_next.2 (.inr ⟨_, bind_eq_error.2 (.inr ⟨_, hwf.pop_of_pos hsp, hadvance⟩), rfl⟩)

theorem exec_print_of_pos {s : State} (hwf : s.WF) (hsp : 0 < s.sp) (hip : s.ip.toNat + 1 < s.cfg.imemCap) :
    exec .print s = .next ((s.dropped.emit (s.slot (s.sp - 1))).past 1) :=
  (Completes.print hsp (hwf.getElem?_of_lt (Nat.sub_one_lt_of_lt hsp)) hip).exec_eq

/-- PRINT's completion appends the popped word to the output; every other completion leaves the output alone. -/
theorem Completes.out_cases {i : Instr} {s t : State} (h : Completes i s t) :
    (i ≠ .print ∧ t.out = s.out) ∨
      (i = .print ∧ 0 < s.sp ∧ ∃ v, s.stk[s.sp - 1]? = some v ∧ t = (s.dropped.emit v).past 1) := by
  cases h with
  | print hsp hv => exact .inr ⟨rfl, hsp, _, hv, rfl⟩
  | alu _ _ _ hop => rcases hop with ⟨rfl, -⟩ | ⟨rfl, -⟩ | ⟨rfl, -⟩ | ⟨rfl, -⟩ <;> exact .inl ⟨nofun, rfl⟩
  | _ => exact .inl ⟨nofun, rfl⟩

end Sys2Proof.Machine
end

section
/-! PROOFS. The digits of the decimal rendering: their size, their value, and the first of them (spec 45_output.md R66). -/

namespace Sys2Proof.Machine

theorem decimalDigits_of_lt {n : Nat} (h : n < 10) (fuel : Nat) : decimalDigits (fuel + 1) n = [n] := if_pos h

theorem decimalDigits_of_ge {n : Nat} (h : 10 ≤ n) (fuel : Nat) :
    decimalDigits (fuel + 1) n = decimalDigits fuel (n / 10) ++ [n % 10] :=
  if_neg (Nat.not_lt.2 h)

theorem lt_ten_of_mem_decimalDigits {fuel n d : Nat} (h : d ∈ decimalDigits fuel n) : d < 10 := by
  induction fuel generalizing n with
  | zero => cases h
  | succ fuel ih =>
    obtain hn | hn := Nat.lt_or_ge n 10
    · rw [decimalDigits_of_lt hn, List.mem_singleton] at h
      omega
    · rw [decimalDigits_of_ge hn, List.mem_append, List.mem_singleton] at h
      obtain h | rfl := h
      · exact ih h
      · omega

/-- With fuel for all of its digits a number is the value of their row. -/
theorem foldl_decimalDigits {fuel n : Nat} (h : n < 10 ^ fuel) :
    (decimalDigits fuel n).foldl (fun m d => 10 * m + d) 0 = n := by
  induction fuel generalizing n with
  | zero => exact (Nat.lt_one_iff.1 h).symm
  | succ fuel ih =>
    obtain hn | hn := Nat.lt_or_ge n 10
    · simp [decimalDigits_of_lt hn]
    · have hquot : n / 10 < 10 ^ fuel := by omega
      rw [decimalDigits_of_ge hn, List.foldl_append, ih hquot]
      exact Nat.div_add_mod n 10

/-- With fuel for all of its digits a positive number begins with a digit other than 0. -/
theorem head?_decimalDigits_of_pos {fuel n : Nat} (hpos : 0 < n) (h : n < 10 ^ fuel) :
    ∃ d, (decimalDigits fuel n).head? = some d ∧ d ≠ 0 := by
  induction fuel generalizing n with
  | zero => omega
  | succ fuel ih =>
    obtain hn | hn := Nat.lt_or_ge n 10
    · exact ⟨n, by rw [decimalDigits_of_lt hn, List.head?_singleton], hpos.ne'⟩
    · obtain ⟨d, hd, hne⟩ := ih (n := n / 10) (by omega) (by omega)
      exact ⟨d, by rw [decimalDigits_of_ge hn, List.head?_append, hd, Option.some_or], hne⟩

/-- Ten digits are enough for the size of every 32-bit value. -/
theorem natAbs_toInt_lt (v : Word) : v.toInt.natAbs < 10 ^ 10 := by
  have hlow := v.le_toInt
  have hhigh := v.toInt_lt
  omega

end Sys2Proof.Machine
end

section
/-! PROOFS. The statements of 45_output.md. -/

namespace Sys2Proof.Machine

/-- Settles O22: a fault entry and every completion but PRINT's leave the output alone, and PRINT's leaves the core RUNNING. -/
theorem onlyCompletedPrintEmits : Obligations.OnlyCompletedPrintEmits := by
  unfold Obligations.OnlyCompletedPrintEmits
  intro s t h
  obtain ⟨hrun, -⟩ := step_eq_next.1 h
  obtain ⟨k, rfl⟩ | ⟨i, hf, hc⟩ := step_cases h
  · exact .inl ⟨rfl, fun _ => by simp⟩
  · obtain ⟨hne, hout⟩ | ⟨rfl, hsp, v, hv, rfl⟩ := hc.out_cases
    · exact .inl ⟨hout, fun hprint => absurd (Except.ok.inj (hf.symm.trans hprint)) hne⟩
    · exact .inr ⟨hf, hrun, hsp, v, hv, rfl⟩

/-- Settles O39: the pop's underflow check, then `advance(1)`; the emitted word is the one that was on top. -/
theorem printEmitsTop : Obligations.PrintEmitsTop := by
  unfold Obligations.PrintEmitsTop
  refine fun s hwf => ⟨rfl, exec_print_of_empty, fun hsp h => exec_print_of_end hwf hsp h.ge, fun hsp h => ?_⟩
  rw [exec_print_of_pos hwf hsp h, State.past_eq]
  rfl

/-- Settles O60: 0 is the one digit 0, and any other size has a first digit other than 0. -/
theorem decimalTextOfOutput : Obligations.DecimalTextOfOutput := by
  unfold Obligations.DecimalTextOfOutput
  intro v
  have hsize := natAbs_toInt_lt v
  refine ⟨decimalDigits 10 v.toInt.natAbs, rfl, fun d => lt_ten_of_mem_decimalDigits, foldl_decimalDigits hsize, ?_⟩
  obtain hzero | hpos := Nat.eq_zero_or_pos v.toInt.natAbs
  · simp [hzero, decimalDigits_of_lt]
  · obtain ⟨d, hd, hne⟩ := head?_decimalDigits_of_pos hpos hsize
    exact ⟨fun h => absurd (Option.some.inj (hd.symm.trans h)) hne, fun hnil => by simp [hnil] at hd⟩

end Sys2Proof.Machine
end

section
/-! PROOFS. The observers set aside, in the state or in the outcome: every operation gives the same either way, since it reads no parameter but
IMEM_CAP and STACK_CAP, and no trace (spec 45_output.md R66; 60_exceptions.md R75). -/

namespace Sys2Proof.Machine

@[simp] theorem State.withoutObservers_imemCap (s : State) : s.withoutObservers.cfg.imemCap = s.cfg.imemCap := rfl
@[simp] theorem State.withoutObservers_stackCap (s : State) : s.withoutObservers.cfg.stackCap = s.cfg.stackCap := rfl
@[simp] theorem State.withoutObservers_ip (s : State) : s.withoutObservers.ip = s.ip := rfl
@[simp] theorem State.withoutObservers_sp (s : State) : s.withoutObservers.sp = s.sp := rfl
@[simp] theorem State.withoutObservers_stk (s : State) : s.withoutObservers.stk = s.stk := rfl
@[simp] theorem State.withoutObservers_runState (s : State) : s.withoutObservers.runState = s.runState := rfl
@[simp] theorem State.withoutObservers_withoutObservers (s : State) :
    s.withoutObservers.withoutObservers = s.withoutObservers := rfl

@[simp] theorem State.setIp_withoutObservers (a : Addr) (s : State) :
    s.withoutObservers.setIp a = (s.setIp a).withoutObservers := rfl
@[simp] theorem State.pushed_withoutObservers (v : Word) (s : State) :
    s.withoutObservers.pushed v = (s.pushed v).withoutObservers := rfl
@[simp] theorem State.dropped_withoutObservers (s : State) : s.withoutObservers.dropped = s.dropped.withoutObservers := rfl

/-- The fetch looks at ip, the store and IMEM_CAP alone. -/
@[simp] theorem fetch_withoutObservers (s : State) : fetch s.withoutObservers = fetch s := rfl

/-- With the port off a step begins by showing nothing. -/
theorem State.startStep_withoutObservers (s : State) :
    s.withoutObservers.startStep = s.startStep.withoutObservers := rfl

@[simp] theorem mapNext_withoutObservers_twice (o : Result) :
    mapNext State.withoutObservers (mapNext State.withoutObservers o) = mapNext State.withoutObservers o := by
  cases o <;> rfl

/-! ### Sequencing and commit -/

/-- Two computations in two parts correspond when both parts do. -/
theorem bind_eq_map_bind {α α' β β' : Type} {f : α → α'} {g : β → β'} {x : Except Abort α} {x' : Except Abort α'}
    {k : α → Except Abort β} {k' : α' → Except Abort β'} (hx : x' = f <$> x) (hk : ∀ a, k' (f a) = g <$> k a) :
    x' >>= k' = g <$> (x >>= k) := by
  rw [hx, bind_map_left, map_bind]
  exact bind_congr hk

theorem State.commit_withoutObservers {s : State} {x y : Except Abort State} (h : y = State.withoutObservers <$> x) :
    s.withoutObservers.commit y = mapNext State.withoutObservers (s.commit x) := by
  rw [h]
  match x with
  | .ok _ | .error (.raise _) | .error (.absent _) => rfl

/-! ### The primitives and the frames -/

theorem advance_withoutObservers (w : Nat) (s : State) :
    advance w s.withoutObservers = State.withoutObservers <$> advance w s := by
  by_cases h : s.cfg.imemCap ≤ s.ip.toNat + w <;> simp [advance, h]

theorem jump_withoutObservers (a : Addr) (s : State) : jump a s.withoutObservers = State.withoutObservers <$> jump a s := by
  by_cases h : s.cfg.imemCap ≤ a.toNat <;> simp [jump, h]

theorem push_withoutObservers (v : Word) (s : State) : push v s.withoutObservers = State.withoutObservers <$> push v s := by
  by_cases hcap : s.cfg.stackCap ≤ s.sp + 2
  · simp [push, hcap]
  · by_cases hlen : s.sp < s.stk.length <;> simp [push, hcap, hlen]

theorem pop_withoutObservers (s : State) : pop s.withoutObservers = Prod.map id State.withoutObservers <$> pop s := by
  by_cases hsp : s.sp = 0
  · simp [pop, hsp]
  · cases hv : s.stk[s.sp - 1]? <;> simp [pop, hsp, hv]

theorem jumpIf_withoutObservers (taken : Word → Bool) (a : Addr) (s : State) :
    jumpIf taken a s.withoutObservers = State.withoutObservers <$> jumpIf taken a s := by
  refine bind_eq_map_bind (pop_withoutObservers s) fun ⟨v, u⟩ => ?_
  change (if taken v then _ else _) = _ <$> (if taken v then _ else _)
  split
  · exact jump_withoutObservers a u
  · exact advance_withoutObservers 3 u

theorem aluFrame_withoutObservers (op : Word → Word → Except Abort Word) (s : State) :
    aluFrame op s.withoutObservers = State.withoutObservers <$> aluFrame op s :=
  bind_eq_map_bind (pop_withoutObservers s) fun ⟨s1, t⟩ =>
    bind_eq_map_bind (pop_withoutObservers t) fun ⟨s2, u⟩ =>
      bind_eq_map_bind (id_map (op s2 s1)).symm fun v =>
        bind_eq_map_bind (push_withoutObservers v u) fun w => advance_withoutObservers 1 w

/-! ### The instructions and the step -/

theorem exec_withoutObservers (i : Instr) (s : State) :
    exec i s.withoutObservers = mapNext State.withoutObservers (exec i s) := by
  cases i with
  | nop => exact State.commit_withoutObservers (advance_withoutObservers 1 s)
  | push imm =>
    exact State.commit_withoutObservers (bind_eq_map_bind (push_withoutObservers imm s) fun t => advance_withoutObservers 5 t)
  | pop =>
    exact State.commit_withoutObservers (bind_eq_map_bind (pop_withoutObservers s) fun ⟨_, t⟩ => advance_withoutObservers 1 t)
  | load r =>
    exact State.commit_withoutObservers (bind_eq_map_bind (id_map (regIndex r)).symm fun k =>
      bind_eq_map_bind (push_withoutObservers (s.reg k) s) fun t => advance_withoutObservers 2 t)
  | store r =>
    exact State.commit_withoutObservers (bind_eq_map_bind (id_map (regIndex r)).symm fun k =>
      bind_eq_map_bind (pop_withoutObservers s) fun ⟨v, t⟩ => advance_withoutObservers 2 (t.setReg k v))
  | jmp a => exact State.commit_withoutObservers (jump_withoutObservers a s)
  | jz a | jnz a => exact State.commit_withoutObservers (jumpIf_withoutObservers _ a s)
  | add | sub | mul | div => exact State.commit_withoutObservers (aluFrame_withoutObservers _ s)
  | print =>
    exact State.commit_withoutObservers (bind_eq_map_bind (pop_withoutObservers s) fun ⟨v, t⟩ =>
      advance_withoutObservers 1 (t.emit v))
  | stop => rfl

theorem step_withoutObservers (s : State) : step s.withoutObservers = mapNext State.withoutObservers (step s) := by
  simp only [step, State.withoutObservers_runState, fetch_withoutObservers, State.startStep_withoutObservers]
  cases s.runState with
  | running =>
    cases fetch s with
    | ok i => exact exec_withoutObservers i s.startStep
    | error e => exact State.commit_withoutObservers (x := .error e) rfl
  | halted | faulted | reserved => rfl

end Sys2Proof.Machine
end

section
/-! PROOFS. The trace grows at the start of a step and nowhere else; and what the window of a snapshot shows (spec 60_exceptions.md R75). -/

namespace Sys2Proof.Machine

theorem Completes.trace_eq {i : Instr} {s t : State} (h : Completes i s t) : t.trace = s.trace := by cases h <;> rfl

theorem step_trace_eq {s t : State} (h : step s = .next t) : t.trace = s.startStep.trace := by
  obtain ⟨k, rfl⟩ | ⟨i, -, hc⟩ := step_cases h
  · rfl
  · exact hc.trace_eq

theorem State.length_snapshot_window (s : State) :
    s.snapshot.window.length = min (s.ip.toNat + s.cfg.traceWindow) s.cfg.imemCap - s.ip.toNat := by
  simp only [State.snapshot, State.bytesAtIp, Memory.length_bytes]
  omega

theorem State.getElem?_snapshot_window (s : State) {k : Nat} (hk : k < s.snapshot.window.length) :
    s.snapshot.window[k]? = some (Memory.read s.imem (s.ip.toNat + k)) :=
  Memory.getElem?_bytes _ _ _ k (hk.trans_eq (Memory.length_bytes ..))

end Sys2Proof.Machine
end

section
/-! PROOFS. The statements of 60_exceptions.md. -/

namespace Sys2Proof.Machine

/-- Settles O50: setting the observers aside before the step or after it gives the same outcome, and doing it twice is doing it once. -/
theorem observersChangeNothing : Obligations.ObserversChangeNothing := fun s => by
  rw [step_withoutObservers, mapNext_withoutObservers_twice]

/-- Settles O51: the snapshot is taken before the fetch, and neither a completion nor a fault entry touches the trace. -/
theorem traceShowsStateBeforeStep : Obligations.TraceShowsStateBeforeStep := by
  unfold Obligations.TraceShowsStateBeforeStep
  intro s t h
  rw [step_trace_eq h, State.startStep_trace]
  refine ⟨fun hoff => by simp [hoff], fun hon => ⟨s.snapshot, by simp [hon], rfl, rfl, rfl, rfl, s.length_snapshot_window, ?_⟩⟩
  exact fun _ => s.getElem?_snapshot_window

/-- Settles O25: each field is read off the word that fault entry writes. -/
theorem faultEntryFields : Obligations.FaultEntryFields :=
  ⟨fun s k => ⟨faultStatus_toNat s.ip k, s.raised_runState k, fcodeField_faultStatus s.ip k, fipField_faultStatus s.ip k,
    reservedLow_faultStatus s.ip k, reservedHigh_faultStatus s.ip k, rfl⟩, rfl⟩

end Sys2Proof.Machine
end

section
/-! PROOFS. What the host's load can do, and that no part of the invariant but the store's shape depends on what is loaded
(spec 70_reset_and_hazards.md R79). -/

namespace Sys2Proof.Machine

/-- The store that holds `bs`: each byte at its offset, and what an unlisted address reads as after them. -/
theorem Memory.read_ofBytes (bs : List Byte) (a : Nat) : Memory.read (Memory.ofBytes bs) a = (bs[a]?).getD Memory.unlisted := by
  simp [Memory.ofBytes, Memory.read_writeBytes (m := []) rfl]

section
variable {s : State} {bytes : List Byte}

theorem State.load_of_tooLarge (h : s.phase = .loadable) (hlen : s.cfg.imemCap < bytes.length) :
    s.load bytes = (.programTooLarge, s) := by
  simp [State.load, h, hlen]

theorem State.load_of_fits (h : s.phase = .loadable) (hlen : bytes.length ≤ s.cfg.imemCap) :
    s.load bytes = (.ok, { s with imem := Memory.ofBytes bytes }) := by
  simp [State.load, h, hlen]

end

/-- A load leaves the state as it is, or replaces its store with a program that fits. -/
theorem State.load_state_cases (s : State) (bytes : List Byte) :
    (s.load bytes).2 = s ∨
      (bytes.length ≤ s.cfg.imemCap ∧ (s.load bytes).2 = { s with imem := Memory.ofBytes bytes }) := by
  cases h : s.phase with
  | started => exact .inl (congrArg Prod.snd (State.load_of_started h bytes))
  | loadable =>
    by_cases hlen : bytes.length ≤ s.cfg.imemCap
    · exact .inr ⟨hlen, by rw [State.load_of_fits h hlen, h]⟩
    · exact .inl (congrArg Prod.snd (State.load_of_tooLarge h (by omega)))

theorem State.load_runState (s : State) (bytes : List Byte) : (s.load bytes).2.runState = s.runState := by
  obtain h | ⟨-, h⟩ := s.load_state_cases bytes <;> rw [h]
  rfl

theorem State.load_keeps_inv {s : State} (h : s.Inv) (bytes : List Byte) : (s.load bytes).2.Inv := by
  obtain e | ⟨hlen, e⟩ := s.load_state_cases bytes <;> rw [e]
  · exact h
  · obtain ⟨⟨hvalid, hip, hsp, hstk, -, -⟩, hrest⟩ := h
    have hcells : ∀ c ∈ Memory.ofBytes bytes, c.1 < s.cfg.imemCap := fun c hc => (Memory.mem_ofBytes hc).trans_le hlen
    exact ⟨⟨hvalid, hip, hsp, hstk, Memory.ofBytes_wf bytes, hcells⟩, hrest⟩

end Sys2Proof.Machine
end

section
/-! PROOFS. Runs: the rest of a budget spent later, and what a run reports (spec 70_reset_and_hazards.md R80, R81, R86). -/

namespace Sys2Proof.Machine

section
variable {s : State}

theorem State.runEnd_eq_budgetSpent : s.runEnd = .budgetSpent ↔ s.runState = .running := by
  cases h : s.runState <;> simp [State.runEnd, h]

/-- A refused step leaves every run where it is. -/
theorem run_of_step_refused {r : Refusal} (h : step s = .refused r) (n : Nat) : s.run n = (s.runEnd, s) := by
  cases n with
  | zero => rfl
  | succ n => simp [State.run, h]

theorem run_succ_of_fault {f : Fault} (h : step s = .fault f) (n : Nat) : s.run (n + 1) = (.stuck, s) := by
  simp [State.run, h]

/-- A run whose budget is spent goes on with the next budget where it stopped (70_reset_and_hazards.md R81). -/
theorem run_add_of_budgetSpent {m : Nat} (h : (s.run m).1 = .budgetSpent) (n : Nat) : s.run (m + n) = (s.run m).2.run n := by
  induction m generalizing s with
  | zero => rw [Nat.zero_add]; rfl
  | succ m ih =>
    rw [Nat.add_right_comm]
    cases hs : step s with
    | next t =>
      rw [run_succ_of_next hs] at h ⊢
      rw [run_succ_of_next hs, ih h]
    | fault f =>
      rw [run_succ_of_fault hs] at h
      cases h
    | refused r => rw [run_of_step_refused hs, run_of_step_refused hs, run_of_step_refused hs]

/-- A run that ended otherwise takes no more steps (70_reset_and_hazards.md R80). -/
theorem run_add_of_ended {m : Nat} (h : (s.run m).1 ≠ .budgetSpent) (n : Nat) : s.run (m + n) = s.run m := by
  induction m generalizing s with
  | zero =>
    have hrun : s.runState ≠ .running := mt State.runEnd_eq_budgetSpent.2 h
    rw [run_of_not_running hrun, run_of_not_running hrun]
  | succ m ih =>
    rw [Nat.add_right_comm]
    cases hs : step s with
    | next t =>
      rw [run_succ_of_next hs] at h ⊢
      rw [run_succ_of_next hs, ih h]
    | fault f => rw [run_succ_of_fault hs, run_succ_of_fault hs]
    | refused r => rw [run_of_step_refused hs, run_of_step_refused hs]

/-- From a state of the spec's type a run reports what STATE says in the state it leaves: it never stops inside the model. -/
theorem run_report_eq_runEnd (hwf : s.WF) (n : Nat) : (s.run n).1 = (s.run n).2.runEnd := by
  induction n generalizing s with
  | zero => rfl
  | succ n ih =>
    by_cases hrun : s.runState = .running
    · obtain ⟨t, ht⟩ := runningStepAnswersNext s hwf hrun
      rw [run_succ_of_next ht]
      exact ih (step_keeps_wf hwf ht)
    · rw [run_of_not_running hrun]

end

/-- STATE = 3 is never produced (10_state.md R17). -/
theorem step_runState_ne_reserved {s t : State} (h : step s = .next t) : t.runState ≠ .reserved := by
  obtain ⟨k, rfl⟩ | ⟨-, rfl⟩ | ⟨-, hrun⟩ := step_status_cases h
  · simp
  · simp
  · simp [hrun]

theorem run_runState_ne_reserved {s : State} (h : s.runState ≠ .reserved) (n : Nat) : (s.run n).2.runState ≠ .reserved :=
  run_keeps (p := fun u => u.runState ≠ .reserved) (fun _ _ _ => step_runState_ne_reserved) n h

end Sys2Proof.Machine
end

section
/-! PROOFS. The statements of 70_reset_and_hazards.md. -/

namespace Sys2Proof.Machine

/-- Settles O17: a load changes the store alone, and to one in its canonical form inside IMEM_CAP; reset keeps the parameters. -/
theorem invariantKeptByHost : Obligations.InvariantKeptByHost := by
  unfold Obligations.InvariantKeptByHost
  intro s bytes h
  have ⟨⟨hvalid, _⟩, _⟩ := h
  exact ⟨State.load_keeps_inv h bytes, resetWith_inv hvalid⟩

/-- Settles O53: the three answers of a load; the store it writes is made from the bytes alone, so a second load forgets the first. -/
theorem loadReplacesWholeStore : Obligations.LoadReplacesWholeStore := by
  unfold Obligations.LoadReplacesWholeStore
  intro s bytes
  refine ⟨fun h => State.load_of_started h bytes, State.load_of_tooLarge, fun h hlen => ?_⟩
  refine ⟨{ s with imem := Memory.ofBytes bytes }, State.load_of_fits h hlen, rfl, fun a ha => ?_, fun a ha => ?_,
    fun bytes' hlen' => ?_⟩
  · simp [Memory.read_ofBytes, ha]
  · simp [Memory.read_ofBytes, ha, Memory.unlisted]
  · rw [State.load_of_fits h hlen']
    exact State.load_of_fits h hlen'

/-- Settles O54, by induction on the first budget. -/
theorem stoppedRunResumes : Obligations.StoppedRunResumes :=
  fun _ n _ => ⟨fun h => run_add_of_budgetSpent h n, fun h => run_add_of_ended h n⟩

/-- Settles O55: the report is what STATE says at the end, and STATE is one of RUNNING, HALTED and FAULTED there. -/
theorem runReportsItsEnd : Obligations.RunReportsItsEnd := by
  unfold Obligations.RunReportsItsEnd
  intro n s hwf hres
  have hend := run_runState_ne_reserved hres n
  rw [run_report_eq_runEnd hwf n]
  cases h : (s.run n).2.runState with
  | running => exact .inr (.inr ⟨State.runEnd_eq_budgetSpent.2 h, rfl⟩)
  | halted => exact .inl ⟨by simp [State.runEnd, h], rfl⟩
  | faulted => exact .inr (.inl ⟨rfl, by simp [State.runEnd, h]⟩)
  | reserved => exact absurd h hend

/-- Settles O52: the fields of the reset state, and the load and the run that leave STATE alone. -/
theorem resetZeroesEverything : Obligations.ResetZeroesEverything := by
  unfold Obligations.ResetZeroesEverything
  intro s
  have hreg : ∀ r, s.hostReset.reg r = 0 := fun r => Vector.getElem_replicate r.isLt
  have hslot : ∀ i, i < s.cfg.stackCap → s.hostReset.stk[i]? = some 0 := fun i hi => List.getElem?_replicate_of_lt hi
  have hrun : s.runState ≠ .running → ∀ n, (s.run n).2.runState = s.runState := fun h n => by rw [run_of_not_running h n]
  exact ⟨rfl, rfl, hreg, List.length_replicate, hslot, fun _ => rfl, rfl, rfl, rfl, rfl, rfl, hrun, s.load_runState⟩

end Sys2Proof.Machine
end
